-- ==== Sys2Proof/Word.lean ====
section
/-! DEFINITION. The words the machine is made of (spec R7, R9, R10): unsigned values of a fixed width, bit 0 the least
significant, and the two register files that hold words by index. -/

namespace Sys2Proof

/-- A 32-bit unsigned word (R7 `WORD`, R9). -/
abbrev Word := BitVec 32

/-- A byte of a message, of a padded message or of a digest (R50, R51). -/
abbrev Byte := BitVec 8

/-- The 41-bit transaction word `TW` (R70): bit 40 the kind, bits 39:32 the offset, bits 31:0 the data. -/
abbrev TransactionWord := BitVec 41

/-- Sixteen words: a block, the block buffer `MB`, the schedule window `WS` (R7 `BLOCK_BITS`, R8 `WINDOW_WORDS`). -/
abbrev Block := Vector Word 16

/-- Five words: the hash state `H` (R7 `STATE_WORDS`, R21). -/
abbrev HashState := Vector Word 5

end Sys2Proof
end

