-- ==== Sys2Proof/Config.lean ====
section
/-! DEFINITION. What the spec leaves open: the interleaving of the two agents (R13, U10), the time an engine step takes
(R8, U7) and the base address of the register window (R55, U11). None of the three has a value here. -/

namespace Sys2Proof

/-- The two agents that act on one instance (R13). -/
inductive Agent where
  /-- The host: register transactions and Reset. -/
  | host
  /-- The engine: ROUND and FINAL. -/
  | engine
  deriving DecidableEq, Repr, Inhabited

namespace Config

/-- FREE VALUE (log 1, log 18): where the state's own `turns` say nothing, how many moves the host makes while the engine's step
stays enabled, before that step, in the n-th such stretch. R13 and U10 leave it open within fairness: it is a number, so the
engine's step comes, and nothing is known of it. -/
opaque freeWait : Nat → Nat

/-- OPEN PARAMETER `cycles_per_step` (R8, R211): clock cycles one engine step takes. No rule reads it (log 9). -/
opaque cyclesPerStep : Nat

/-- OPEN PARAMETER (R55, U11): where offset 0x00 of the window sits in a platform's address space. No rule reads it; every
offset of the model is relative to it (log 9). -/
opaque windowBase : Nat

end Config

end Sys2Proof
end

