-- ==== Sys2Proof/Syntax.lean ====
section
/-! DEFINITION. The operations of the machine as syntax: the twelve rows of spec/opcode_table.json (R76), the accesses a
platform can present (R54, R70), the errors a transaction can raise (R180) and the host's moves (R212, R78). -/

namespace Sys2Proof

/-- The four error causes (R180). -/
inductive ErrorCode where
  /-- Code 1: INIT or START while BUSY = 1. -/
  | cmdWhileBusy
  /-- Code 2: a command word above 2. -/
  | illegalCmd
  /-- Code 3: a misaligned, reserved or absent offset, or a width other than 32 bits. -/
  | badAddr
  /-- Code 4: a write to a read-only register or a read of the write-only one. -/
  | badAccess
  deriving DecidableEq, Repr

/-- The direction of a transaction, the field `kind` of R70. -/
inductive Kind where
  | read
  | write
  deriving DecidableEq, Repr

/-- One constructor per row of spec/opcode_table.json (R76). -/
inductive Instr where
  /-- NOP (R120). -/
  | nop
  /-- INIT (R121). -/
  | init
  /-- START (R122). -/
  | start
  /-- WRMB idx, v (R123). -/
  | wrmb (idx : BitVec 4) (data : Word)
  /-- RDMB idx (R124). -/
  | rdmb (idx : BitVec 4)
  /-- RDH idx (R127); idx is the three bits off[4:2], of which 0..4 are registers. -/
  | rdh (idx : BitVec 3)
  /-- RDSTATUS (R128). -/
  | rdstatus
  /-- ROUND.CH (R150): the round at T in 0..19. -/
  | roundCh
  /-- ROUND.PAR1 (R150): the round at T in 20..39. -/
  | roundPar1
  /-- ROUND.MAJ (R150): the round at T in 40..59. -/
  | roundMaj
  /-- ROUND.PAR2 (R150): the round at T in 60..79. -/
  | roundPar2
  /-- FINAL (R156): the hash-state update at T = 80. -/
  | final
  deriving DecidableEq, Repr

/-- An access a platform can present at the window (R54, R70): any offset, any width. Those with a transaction word are the
32-bit ones at offsets 0x00..0xFF. `data` is the value written; a read ignores it. -/
structure Access where
  kind  : Kind
  off   : Nat
  width : Nat
  data  : Word
  deriving DecidableEq, Repr

/-- What the host can do next (R212): Reset, an access, or the pseudo-instruction `wait` of R78 (log 7). -/
inductive HostMove where
  /-- The Reset event (R200). -/
  | reset
  /-- One register transaction (R125, R126). -/
  | access (a : Access)
  /-- `wait`: repeat `rd STATUS` until `r[0] = 0` (R78). -/
  | wait
  deriving DecidableEq, Repr

end Sys2Proof
end

