-- ==== Sys2Proof/WellFormed.lean ====
section
/-! DEFINITION. Which instructions the encoding admits (R76's constraint column) and which accesses have a transaction word
(R70). -/

namespace Sys2Proof

/-- The constraint column of R76: RDH has idx <= 4; every other field admits all its values. -/
def Instr.wellFormed : Instr → Bool
  | .rdh idx => decide (idx.toNat ≤ 4)
  | .nop => true
  | .init => true
  | .start => true
  | .wrmb _ _ => true
  | .rdmb _ => true
  | .rdstatus => true
  | .roundCh => true
  | .roundPar1 => true
  | .roundMaj => true
  | .roundPar2 => true
  | .final => true

/-- The rows of format CMD, WR and RD, which a transaction word selects; the five SEQ rows are not encoded (R71). -/
def Instr.isTransaction : Instr → Bool
  | .nop => true
  | .init => true
  | .start => true
  | .wrmb _ _ => true
  | .rdmb _ => true
  | .rdh _ => true
  | .rdstatus => true
  | .roundCh => false
  | .roundPar1 => false
  | .roundMaj => false
  | .roundPar2 => false
  | .final => false

/-- The accesses that have a transaction word (R70): 32 bits wide, at an offset of 8 bits. -/
def Access.wellFormed (a : Access) : Bool :=
  decide (a.width = 32) && decide (a.off < 256)

end Sys2Proof
end

