-- ==== Sys2Proof/Decode.lean ====
section
/-! DEFINITION. The decoder of R70 to R76, total on every access, and the encoder written from the same tables. -/

namespace Sys2Proof

/-- What an offset selects (R72, the map of R55). -/
inductive Target where
  | cmd
  | status
  | hash (idx : BitVec 3)
  | block (idx : BitVec 4)
  | reserved
  deriving DecidableEq, Repr

/-- What a transaction decodes to (R74): exactly one operation of R76, or a rejection with one error code. -/
inductive Decoded where
  | op (i : Instr)
  | reject (c : ErrorCode)
  deriving DecidableEq, Repr

/-- The bit `kind` of R70: 1 is a write. -/
def kindBit : Kind → BitVec 1
  | .write => 1#1
  | .read => 0#1

/-- Bit 40 of a transaction word read as a direction (R70). -/
def kindOfBit (b : Bool) : Kind := if b then .write else .read

/-- The fields of a transaction word put together, `kind || off || data` (R70). -/
def packWord (k : Kind) (off : BitVec 8) (data : Word) : TransactionWord :=
  kindBit k ++ off ++ data

/-- The table of R72 for an offset whose two low bits are 00. -/
def selectTarget (off : BitVec 8) : Target :=
  if off.extractLsb' 7 1 = 1#1 then .reserved
  else if off.extractLsb' 6 2 = 0b01#2 then .block (off.extractLsb' 2 4)
  else if off.extractLsb' 5 3 = 0b001#3 then
    (if (off.extractLsb' 2 3).toNat ≤ 4 then .hash (off.extractLsb' 2 3) else .reserved)
  else if off = 0x00#8 then .cmd
  else if off = 0x04#8 then .status
  else .reserved

/-- The command word of R73. Codes 1 and 2 stand here for the legal encodings INIT and START whether or not the engine is
busy (R74 (d)); their meanings reject them while BUSY = 1 (R121, R122). -/
def decodeCommand (data : Word) : Decoded :=
  if 3 ≤ data.toNat then .reject .illegalCmd
  else if data = 0#32 then .op .nop
  else if data = 1#32 then .op .init
  else .op .start

/-- R75 without its line on BUSY: the operation or the rejection that the transaction word alone decides. -/
def decodeFields (k : Kind) (off : BitVec 8) (data : Word) : Decoded :=
  if off.extractLsb' 0 2 ≠ 0#2 then .reject .badAddr
  else
    match selectTarget off, k with
    | .reserved, _ => .reject .badAddr
    | .status, .write => .reject .badAccess
    | .hash _, .write => .reject .badAccess
    | .cmd, .read => .reject .badAccess
    | .status, .read => .op .rdstatus
    | .hash idx, .read => .op (.rdh idx)
    | .block idx, .read => .op (.rdmb idx)
    | .block idx, .write => .op (.wrmb idx data)
    | .cmd, .write => decodeCommand data

/-- The whole of R75, with BUSY: the first matching line applies. -/
def decodeWhile (k : Kind) (off : BitVec 8) (data : Word) (busy : Bool) : Decoded :=
  match decodeFields k off data with
  | .op .init => if busy then .reject .cmdWhileBusy else .op .init
  | .op .start => if busy then .reject .cmdWhileBusy else .op .start
  | r => r

/-- The decoder on a transaction word (R70, R75). -/
def decodeWord (tw : TransactionWord) : Decoded :=
  decodeFields (kindOfBit (tw.getLsbD 40)) (tw.extractLsb' 32 8) (tw.extractLsb' 0 32)

/-- The whole of R75 on a transaction word. -/
def decodeWordWhile (tw : TransactionWord) (busy : Bool) : Decoded :=
  decodeWhile (kindOfBit (tw.getLsbD 40)) (tw.extractLsb' 32 8) (tw.extractLsb' 0 32) busy

/-- The transaction word of an access, if it has one (R70). -/
def Access.word? (a : Access) : Option TransactionWord :=
  if a.wellFormed then some (packWord a.kind (BitVec.ofNat 8 a.off) a.data) else none

/-- The decoder on any access: one without a transaction word is `BAD_ADDR` (R54, R70, R183). -/
def decodeAccess (a : Access) : Decoded :=
  match a.word? with
  | none => .reject .badAddr
  | some tw => decodeWord tw

/-- The transaction `RegWrite(off, v)` (R125). -/
def regWrite (off : BitVec 8) (v : Word) : Access :=
  { kind := .write, off := off.toNat, width := 32, data := v }

/-- The transaction `RegRead(off)` in its canonical form (R126, R70). -/
def regRead (off : BitVec 8) : Access :=
  { kind := .read, off := off.toNat, width := 32, data := 0#32 }

/-- The offset of `CMD` (R55). -/
def offCmd : BitVec 8 := 0x00#8

/-- The offset of `STATUS` (R55). -/
def offStatus : BitVec 8 := 0x04#8

/-- The offset of `H[idx]`, 0x20 + 4*idx, in bits: 001 || idx || 00 (R55, R72). -/
def offHash (idx : BitVec 3) : BitVec 8 := 0b001#3 ++ idx ++ 0#2

/-- The offset of `MB[idx]`, 0x40 + 4*idx, in bits: 01 || idx || 00 (R55, R72). -/
def offBlock (idx : BitVec 4) : BitVec 8 := 0b01#2 ++ idx ++ 0#2

/-- The encoder (R70, R73, R76): the transaction word of a well-formed instruction, reads in the canonical form with data 0;
none for the sequencer rows, which are not encoded (R71), and for a register index that does not exist. -/
def encode (i : Instr) : Option TransactionWord :=
  match i with
  | .nop => some (packWord .write offCmd 0#32)
  | .init => some (packWord .write offCmd 1#32)
  | .start => some (packWord .write offCmd 2#32)
  | .wrmb idx data => some (packWord .write (offBlock idx) data)
  | .rdmb idx => some (packWord .read (offBlock idx) 0#32)
  | .rdh idx => if idx.toNat ≤ 4 then some (packWord .read (offHash idx) 0#32) else none
  | .rdstatus => some (packWord .read offStatus 0#32)
  | .roundCh => none
  | .roundPar1 => none
  | .roundMaj => none
  | .roundPar2 => none
  | .final => none

/-- The access whose transaction word has the bits of `w` below `nbits` (R70). A number of more than 41 bits has no
transaction word: its extra bits are put above the offset, so that it is an access outside the window (log 10). -/
def accessOfBits (nbits w : Nat) : Access :=
  let v := w % 2 ^ nbits
  { kind := kindOfBit (v.testBit 40)
    off := 256 * (v / 2 ^ 41) + v / 2 ^ 32 % 256
    width := 32
    data := BitVec.ofNat 32 v }

/-- The instruction the decoder reads from a table row's bits; none where it rejects the transaction. -/
def decodeTableWord (nbits w : Nat) : Option Instr :=
  match decodeAccess (accessOfBits nbits w) with
  | .op i => some i
  | .reject _ => none

end Sys2Proof
end

