-- ==== Sys2Proof/Machine/Constants.lean ====
section
/-! DEFINITION. The wired constants of the engine (R7, R14): the initial hash value and the four round constants. -/

namespace Sys2Proof.Machine

/-- `IV` (R7, R33, R121). -/
def iv : HashState :=
  #v[0x67452301#32, 0xEFCDAB89#32, 0x98BADCFE#32, 0x10325476#32, 0xC3D2E1F0#32]

/-- The number of rounds, `ROUNDS` (R7). -/
def rounds : Nat := 80

/-- The bound on a message's length in bytes, 2^61: its length in bits fits 64 bits (R111). -/
def messageBound : Nat := 2 ^ 61

end Sys2Proof.Machine
end

