-- ==== Sys2Proof/Machine/State.lean ====
section
/-! DEFINITION. The state of one instance: every register of R20 and nothing else of the spec, and beside it the two agents'
side of a run as plain data (the host's program, what its reads returned, the interleaving), which the step consumes. -/

namespace Sys2Proof.Machine

/-- Why the machine can stop. The spec gives the machine no stop at all (R157, R188), so the one reason is the model's. -/
inductive Fault where
  /-- SAFE (log 5). Raised by the meaning of a sequencer row (ROUND.*, FINAL) applied to a state whose (BUSY, T) does not
  select that row: R150 and R156 enable it nowhere else, so no rule gives it an effect there. `step` never raises it. -/
  | microOpNotSelected
  deriving DecidableEq, Repr

/-- Why an instruction has no meaning. -/
inductive Refusal where
  /-- SAFE. Raised by an arm of `exec` whose instruction is not modelled; no arm is. -/
  | notModelled (mnemonic : String)
  deriving DecidableEq, Repr

/-- R20, field by field, then the model's own five fields. -/
structure State where
  /-- `H[0..4]`, the hash state (R21). -/
  h : HashState
  /-- Working variable `a` (R22). -/
  a : Word
  /-- Working variable `b` (R22). -/
  b : Word
  /-- Working variable `c` (R22). -/
  c : Word
  /-- Working variable `d` (R22). -/
  d : Word
  /-- Working variable `e` (R22). -/
  e : Word
  /-- `WS[0..15]`, the schedule window (R26). -/
  ws : Block
  /-- `MB[0..15]`, the block buffer (R25). -/
  mb : Block
  /-- `T`, the round counter, 7 bits (R23). -/
  t : BitVec 7
  /-- `BUSY` (R27). -/
  busy : Bool
  /-- `DONE` (R28). -/
  done : Bool
  /-- `ERR` (R180, R181). -/
  err : Bool
  /-- `ERRCODE`, 4 bits (R180, R181). -/
  errcode : BitVec 4
  /-- MODEL'S OWN (log 2): the host's moves not yet made, oldest first. -/
  pending : List HostMove
  /-- MODEL'S OWN (log 3): the values the host's reads returned, newest first. -/
  replies : List Word
  /-- MODEL'S OWN (log 1): which agent moves at the next points where both can, oldest first. -/
  turns : List Agent
  /-- MODEL'S OWN (log 1): which stretch of an enabled engine step comes next beyond `turns`; the free value is applied to it. -/
  tick : Nat
  /-- MODEL'S OWN (log 18): how many moves the host has made in that stretch. -/
  waited : Nat
  deriving DecidableEq, Repr

/-- The machine right after Reset (R33, R200); the model's own fields are empty (log 11). -/
def State.reset : State where
  h := iv
  a := 0#32
  b := 0#32
  c := 0#32
  d := 0#32
  e := 0#32
  ws := Vector.replicate 16 0#32
  mb := Vector.replicate 16 0#32
  t := 0#7
  busy := false
  done := false
  err := false
  errcode := 0#4
  pending := []
  replies := []
  turns := []
  tick := 0
  waited := 0

end Sys2Proof.Machine
end

