-- ==== Sys2Proof/Machine/Operands.lean ====
section
/-! DEFINITION. The combinational operators of the datapath (R90 to R99) and the selection of round function and constant by
the round index (R97). They hold no state, write no flag and raise no error (R93). -/

namespace Sys2Proof.Machine

/-- `ROTL_n(x)`, the left rotation within 32 bits (R90, R11). -/
def rotl (n : Nat) (x : Word) : Word := x.rotateLeft n

/-- `ROTL_1`, the rotate unit of the schedule (R91). -/
def rotl1 (x : Word) : Word := rotl 1 x

/-- `ROTL_5`, the rotate unit on `a` (R91). -/
def rotl5 (x : Word) : Word := rotl 5 x

/-- `ROTL_30`, the rotate unit on `b` (R91). -/
def rotl30 (x : Word) : Word := rotl 30 x

/-- `ADD5` (R94): the integer sum of five words, narrowed to 32 bits. -/
def add5 (v1 v2 v3 v4 v5 : Word) : Word :=
  BitVec.ofNat 32 (v1.toNat + v2.toNat + v3.toNat + v4.toNat + v5.toNat)

/-- The word the schedule recurrence makes of the words 3, 8, 14 and 16 places back (R140, R141): one rotation, after the
XOR. -/
def scheduleMix (w3 w8 w14 w16 : Word) : Word := rotl1 (w3 ^^^ w8 ^^^ w14 ^^^ w16)

/-- The four stages of R97; the names are labels of the spec. -/
inductive Stage where
  | ch
  | par1
  | maj
  | par2
  deriving DecidableEq, Repr

/-- The stage of a round index, by the comparisons T < 20, T < 40, T < 60 (R97). -/
def stageOf (t : Nat) : Stage :=
  if t < 20 then .ch else if t < 40 then .par1 else if t < 60 then .maj else .par2

/-- The round function of a stage, `f_t(b, c, d)` (R97). -/
def roundFn (g : Stage) (b c d : Word) : Word :=
  match g with
  | .ch => (b &&& c) ||| ((~~~b) &&& d)
  | .par1 => b ^^^ c ^^^ d
  | .maj => (b &&& c) ||| (b &&& d) ||| (c &&& d)
  | .par2 => b ^^^ c ^^^ d

/-- The round constant of a stage, `K_t` (R97, R7). -/
def roundK (g : Stage) : Word :=
  match g with
  | .ch => 0x5A827999#32
  | .par1 => 0x6ED9EBA1#32
  | .maj => 0x8F1BBCDC#32
  | .par2 => 0xCA62C1D6#32

/-- `temp` of a round (R94, R150): ROTL_5(a) + f + e + k + w. -/
def roundTemp (g : Stage) (a b c d e w : Word) : Word :=
  add5 (rotl5 a) (roundFn g b c d) e (roundK g) w

/-- The window after a round (R141): WS[i] <- WS[i+1] for i = 0..14, WS[15] <- the new schedule word. -/
def shiftWindow (ws : Block) : Block :=
  Vector.ofFn fun i =>
    if h : i.val + 1 < 16 then ws[i.val + 1] else scheduleMix ws[13] ws[8] ws[2] ws[0]

/-- The five independent adders of the hash-state update (R96): lane i is `H[i] + v_i` mod 2^32. -/
def addLanes (h : HashState) (a b c d e : Word) : HashState :=
  #v[h[0] + a, h[1] + b, h[2] + c, h[3] + d, h[4] + e]

end Sys2Proof.Machine
end

