-- ==== Sys2Proof/Machine/Flags.lean ====
section
/-! DEFINITION. The status view and the numbers of the error codes (R29, R180). No arithmetic writes a flag (R93), so the only
flag computations are the view a read of STATUS returns and the code an error records. -/

namespace Sys2Proof.Machine

/-- The number of an error code, 1 to 4 (R180). -/
def errCodeBits : ErrorCode → BitVec 4
  | .cmdWhileBusy => 1#4
  | .illegalCmd => 2#4
  | .badAddr => 3#4
  | .badAccess => 4#4

/-- `STATUS` (R29): `zext_32(BUSY) + 2*zext_32(DONE) + 4*zext_32(ERR) + 16*zext_32(ERRCODE)`, so bit 0 is BUSY, bit 1 DONE,
bit 2 ERR, bits 7:4 ERRCODE and the other bits 0. -/
def statusWord (s : State) : Word :=
  (BitVec.ofBool s.busy).zeroExtend 32 + 2#32 * (BitVec.ofBool s.done).zeroExtend 32 +
    4#32 * (BitVec.ofBool s.err).zeroExtend 32 + 16#32 * s.errcode.zeroExtend 32

end Sys2Proof.Machine
end

