-- ==== Sys2Proof/Machine/Ops.lean ====
section
/-! DEFINITION. The named operations over the registers: raising an error and Reset (the only way back from one), what a read
returns to the host, and the register updates the meanings are made of. -/

namespace Sys2Proof.Machine

/-- `raise Err(code)` (R181), the whole effect of an error: the first code since Reset is recorded and kept. There is no trap
entry (R188). -/
def raiseErr (c : ErrorCode) (s : State) : State :=
  if s.err then s else { s with err := true, errcode := errCodeBits c }

/-- The value a read returns to the host (R126). -/
def reply (v : Word) (s : State) : State := { s with replies := v :: s.replies }

/-- A rejected transaction (R181, R125, R126): the error record, and a rejected read returns 0. -/
def rejectWith (k : Kind) (c : ErrorCode) (s : State) : State :=
  match k with
  | .write => raiseErr c s
  | .read => reply 0#32 (raiseErr c s)

/-- Reset (R200): every register of R20 is written, in any state. The host's own side of the run is not the machine's to
clear (log 14). There is no other return from an error (R189). -/
def applyReset (s : State) : State :=
  { State.reset with
    pending := s.pending
    replies := s.replies
    turns := s.turns
    tick := s.tick
    waited := s.waited }

/-- The assignments of an accepted INIT (R121). -/
def loadIv (s : State) : State := { s with h := iv, done := false }

/-- The assignments of an accepted START (R122). -/
def loadBlock (s : State) : State :=
  { s with
    a := s.h[0], b := s.h[1], c := s.h[2], d := s.h[3], e := s.h[4]
    ws := s.mb, t := 0#7, busy := true, done := false }

/-- `MB[idx] <- v` (R123). -/
def writeBlock (idx : BitVec 4) (v : Word) (s : State) : State :=
  { s with mb := s.mb.set idx.toNat v idx.isLt }

/-- `MB[idx]` (R124). -/
def readBlock (idx : BitVec 4) (s : State) : Word := s.mb[idx.toNat]'idx.isLt

/-- The assignments of ROUND (R150), all reading the state before the step. -/
def roundUpdate (g : Stage) (s : State) : State :=
  { s with
    a := roundTemp g s.a s.b s.c s.d s.e s.ws[0]
    b := s.a
    c := rotl30 s.b
    d := s.c
    e := s.d
    ws := shiftWindow s.ws
    t := s.t + 1#7 }

/-- The assignments of FINAL (R156). -/
def finalUpdate (s : State) : State :=
  { s with h := addLanes s.h s.a s.b s.c s.d s.e, t := 0#7, busy := false, done := true }

/-- A sequencer row runs where (BUSY, T) selects it (R150, R156, R71); elsewhere no rule gives it an effect (log 5). -/
def whenSelected (sel : Bool) (t : State) : Host.Outcome State Fault Refusal :=
  if sel then .next t else .fault .microOpNotSelected

end Sys2Proof.Machine
end

