-- ==== Sys2Proof/Machine/Accesses.lean ====
section
/-! DEFINITION. The meanings of the four register accesses (R123, R124, R127, R128). -/

namespace Sys2Proof.Machine

/-- WRMB idx, v (R123): accepted whether BUSY is 0 or 1. -/
def execWrmb (idx : BitVec 4) (v : Word) (s : State) : Host.Outcome State Fault Refusal :=
  .next (writeBlock idx v s)

/-- RDMB idx (R124): returns MB[idx]. -/
def execRdmb (idx : BitVec 4) (s : State) : Host.Outcome State Fault Refusal :=
  .next (reply (readBlock idx s) s)

/-- RDH idx (R127): returns H[idx]; for idx 5..7 the offset is reserved and the read is Err(BAD_ADDR) (log 8). -/
def execRdh (idx : BitVec 3) (s : State) : Host.Outcome State Fault Refusal :=
  if h : idx.toNat < 5 then .next (reply s.h[idx.toNat] s) else .next (rejectWith .read .badAddr s)

/-- RDSTATUS (R128): returns the status view. -/
def execRdstatus (s : State) : Host.Outcome State Fault Refusal :=
  .next (reply (statusWord s) s)

end Sys2Proof.Machine
end

