-- ==== Sys2Proof/Machine/Commands.lean ====
section
/-! DEFINITION. The meanings of the three commands (R120 to R122). -/

namespace Sys2Proof.Machine

/-- NOP (R120): no state changes, whether BUSY is 0 or 1. -/
def execNop (s : State) : Host.Outcome State Fault Refusal := .next s

/-- INIT (R121): rejected while BUSY = 1 (R182), else H <- IV and DONE <- 0. -/
def execInit (s : State) : Host.Outcome State Fault Refusal :=
  if s.busy then .next (rejectWith .write .cmdWhileBusy s) else .next (loadIv s)

/-- START (R122): rejected while BUSY = 1 (R182), else the working variables, the window and the control state are loaded. -/
def execStart (s : State) : Host.Outcome State Fault Refusal :=
  if s.busy then .next (rejectWith .write .cmdWhileBusy s) else .next (loadBlock s)

end Sys2Proof.Machine
end

