-- ==== Sys2Proof/Machine/Sequencer.lean ====
section
/-! DEFINITION. The engine's sequencer rows: their selection by (BUSY, T) (R24, R71, R76) and their meanings (R150, R156). -/

namespace Sys2Proof.Machine

/-- The selection of ROUND.CH (R76): BUSY = 1, 0 <= T <= 19. -/
def selectsCh (s : State) : Bool := s.busy && decide (s.t.toNat ≤ 19)

/-- The selection of ROUND.PAR1 (R76): BUSY = 1, 20 <= T <= 39. -/
def selectsPar1 (s : State) : Bool := s.busy && decide (20 ≤ s.t.toNat ∧ s.t.toNat ≤ 39)

/-- The selection of ROUND.MAJ (R76): BUSY = 1, 40 <= T <= 59. -/
def selectsMaj (s : State) : Bool := s.busy && decide (40 ≤ s.t.toNat ∧ s.t.toNat ≤ 59)

/-- The selection of ROUND.PAR2 (R76): BUSY = 1, 60 <= T <= 79. -/
def selectsPar2 (s : State) : Bool := s.busy && decide (60 ≤ s.t.toNat ∧ s.t.toNat ≤ 79)

/-- The selection of FINAL (R76): BUSY = 1, T = 80. -/
def selectsFinal (s : State) : Bool := s.busy && decide (s.t.toNat = 80)

/-- ROUND.CH (R150, R97). -/
def execRoundCh (s : State) : Host.Outcome State Fault Refusal :=
  whenSelected (selectsCh s) (roundUpdate .ch s)

/-- ROUND.PAR1 (R150, R97). -/
def execRoundPar1 (s : State) : Host.Outcome State Fault Refusal :=
  whenSelected (selectsPar1 s) (roundUpdate .par1 s)

/-- ROUND.MAJ (R150, R97). -/
def execRoundMaj (s : State) : Host.Outcome State Fault Refusal :=
  whenSelected (selectsMaj s) (roundUpdate .maj s)

/-- ROUND.PAR2 (R150, R97). -/
def execRoundPar2 (s : State) : Host.Outcome State Fault Refusal :=
  whenSelected (selectsPar2 s) (roundUpdate .par2 s)

/-- FINAL (R156). -/
def execFinal (s : State) : Host.Outcome State Fault Refusal :=
  whenSelected (selectsFinal s) (finalUpdate s)

/-- The micro-operation the control state (BUSY, T) selects (R24, R71): none while BUSY = 0, and none for T = 81..127, which
no run reaches (R23, log 6). -/
def selectMicroOp (s : State) : Option Instr :=
  if selectsCh s then some .roundCh
  else if selectsPar1 s then some .roundPar1
  else if selectsMaj s then some .roundMaj
  else if selectsPar2 s then some .roundPar2
  else if selectsFinal s then some .final
  else none

end Sys2Proof.Machine
end

