-- ==== Sys2Proof/Machine/Dispatch.lean ====
section
/-! DEFINITION. One arm per instruction, each one direct call of its meaning. -/

namespace Sys2Proof.Machine

def exec (i : Instr) (s : State) : Host.Outcome State Fault Refusal :=
  match i with
  | .nop => Sys2Proof.Machine.execNop s
  | .init => Sys2Proof.Machine.execInit s
  | .start => Sys2Proof.Machine.execStart s
  | .wrmb idx data => Sys2Proof.Machine.execWrmb idx data s
  | .rdmb idx => Sys2Proof.Machine.execRdmb idx s
  | .rdh idx => Sys2Proof.Machine.execRdh idx s
  | .rdstatus => Sys2Proof.Machine.execRdstatus s
  | .roundCh => Sys2Proof.Machine.execRoundCh s
  | .roundPar1 => Sys2Proof.Machine.execRoundPar1 s
  | .roundMaj => Sys2Proof.Machine.execRoundMaj s
  | .roundPar2 => Sys2Proof.Machine.execRoundPar2 s
  | .final => Sys2Proof.Machine.execFinal s

end Sys2Proof.Machine
end

