-- ==== Sys2Proof/Machine/Agents.lean ====
section
/-! DEFINITION. The moves of the two agents (R13, R212) and which of them moves next (R57, U10). -/

namespace Sys2Proof.Machine

/-- One host transaction (R125, R126): decode it, then perform the operation or raise the one error. -/
def transact (a : Access) (s : State) : Host.Outcome State Fault Refusal :=
  match decodeAccess a with
  | .op i => exec i s
  | .reject c => .next (rejectWith a.kind c s)

/-- `wait` is done when the `rd STATUS` it just made returned bit 0 clear (R78); else it stays the host's next move. -/
def afterPoll (s : State) : State :=
  if (s.replies.headD 0#32).getLsbD 0 then { s with pending := .wait :: s.pending } else s

/-- One move of the host (R212, R78); `s` no longer lists the move. -/
def hostMove (m : HostMove) (s : State) : Host.Outcome State Fault Refusal :=
  match m with
  | .reset => .next (applyReset s)
  | .access a => transact a s
  | .wait =>
    match transact (regRead offStatus) s with
    | .next u => .next (afterPoll u)
    | .fault r => .fault r
    | .refused r => .refused r

/-- The host has a move: its moves are always enabled (R212), so as long as its program has one. -/
def hostReady (s : State) : Bool := !s.pending.isEmpty

/-- The engine has a step (R13, R27). -/
def engineReady (s : State) : Bool := (selectMicroOp s).isSome

/-- Both agents can move, so the spec leaves open which does (R57, U10). -/
def contested (s : State) : Bool := hostReady s && engineReady s

/-- The weakly fair choice beyond `turns` (R13, log 18): the host moves as often as the free value says while the engine's step stays
enabled, and then the engine takes that step. -/
def freeTurn (s : State) : Agent := if s.waited < Config.freeWait s.tick then .host else .engine

/-- The host moves and does not take the engine's step away, which only Reset does (R157): the engine waits on. -/
def engineWaitsOn (s : State) : Bool := freeTurn s == .host && s.pending.head? != some .reset

/-- Which agent moves next: the only one that can, or, where both can, the one the interleaving names: the head of `turns`,
and beyond their end the free choice (log 1, log 4, log 18). -/
def nextAgent (s : State) : Option Agent :=
  if contested s then
    some (match s.turns with
      | g :: _ => g
      | [] => freeTurn s)
  else if hostReady s then some .host
  else if engineReady s then some .engine
  else none

/-- A choice of the interleaving is used up where there was one to make (log 1). Beyond `turns`, one more move of the host is counted
while the engine waits on; the engine's step, and a Reset, which disables it, end the stretch (log 18). -/
def useTurn (s : State) : State :=
  if contested s then
    match s.turns with
    | _ :: rest => { s with turns := rest }
    | [] =>
      if engineWaitsOn s then { s with waited := s.waited + 1 }
      else { s with tick := s.tick + 1, waited := 0 }
  else s

/-- The host's turn: its oldest pending move is taken off the list and made. -/
def hostTurn (s : State) : Host.Outcome State Fault Refusal :=
  match s.pending with
  | m :: rest => hostMove m { useTurn s with pending := rest }
  | [] => .next s

/-- The engine's turn: the micro-operation that (BUSY, T) selects (R71). -/
def engineTurn (s : State) : Host.Outcome State Fault Refusal :=
  match selectMicroOp s with
  | some i => exec i (useTurn s)
  | none => .next s

/-- Place a transaction as the host's next move, and let the host move next where the engine could move too. -/
def placeAccess (a : Access) (s : State) : State :=
  { s with
    pending := .access a :: s.pending
    turns := if engineReady s then .host :: s.turns else s.turns }

end Sys2Proof.Machine
end

