-- ==== Sys2Proof/Machine/Step.lean ====
section
/-! DEFINITION. One step of the machine: one atomic action of one agent (R13, R57). -/

namespace Sys2Proof.Machine

/-- One atomic action. Where neither agent has one, the machine keeps all its state (R192, log 4). -/
def step (s : State) : Host.Outcome State Fault Refusal :=
  match nextAgent s with
  | some .host => hostTurn s
  | some .engine => engineTurn s
  | none => .next s

/-- The state in which the very next step makes the transaction of a table row (log 2). -/
def State.withFetchWord (s : State) (nbits w : Nat) : State := placeAccess (accessOfBits nbits w) s

end Sys2Proof.Machine
end

