-- ==== Sys2Proof/Machine/Padding.lean ====
section
/-! DEFINITION. The host's side of a digest (R5): byte order (R50, R51, R52), padding (R110, R111) and parsing (R115). -/

namespace Sys2Proof.Machine

/-- `be32(b0, b1, b2, b3)` (R11, R50): the first byte is the most significant. -/
def be32 (b0 b1 b2 b3 : Byte) : Word := b0 ++ b1 ++ b2 ++ b3

/-- The four bytes of a word, most significant first (R51). -/
def wordBytes (w : Word) : List Byte :=
  [w.extractLsb' 24 8, w.extractLsb' 16 8, w.extractLsb' 8 8, w.extractLsb' 0 8]

/-- `len64(n)` (R52, R110): the 8 bytes of a 64-bit unsigned integer, most significant first. -/
def len64 (n : Nat) : List Byte :=
  wordBytes (BitVec.ofNat 32 (n / 2 ^ 32)) ++ wordBytes (BitVec.ofNat 32 n)

/-- `z = (55 - L) mod 64` (R110), with a result in 0..63 also for a negative left side. -/
def padZeros (len : Nat) : Nat := ((55 - (len : Int)) % 64).toNat

/-- `Pad(m) = m || 0x80 || zeros || len64(8 * L)` (R110); none for 2^61 bytes or more, where the spec leaves it undefined and
a model refuses the message (R111). -/
def pad (m : List Byte) : Option (List Byte) :=
  if m.length < messageBound then
    some (m ++ 0x80#8 :: List.replicate (padZeros m.length) 0x00#8 ++ len64 (8 * m.length))
  else none

/-- Block `k` of a byte sequence (R115): word i is be32 of the bytes 64k + 4i to 64k + 4i + 3. -/
def blockAt (p : List Byte) (k : Nat) : Block :=
  Vector.ofFn fun i =>
    be32 (p.getD (64 * k + 4 * i.val) 0#8) (p.getD (64 * k + 4 * i.val + 1) 0#8)
      (p.getD (64 * k + 4 * i.val + 2) 0#8) (p.getD (64 * k + 4 * i.val + 3) 0#8)

/-- `Parse(p)` (R115): the blocks in order; its operand has 64 * N bytes, N >= 1, and nothing is given for another length. -/
def parse (p : List Byte) : Option (List Block) :=
  if p.length % 64 = 0 ∧ p.length ≠ 0 then some ((List.range (p.length / 64)).map (blockAt p)) else none

/-- `Parse(Pad(m))`. -/
def messageBlocks (m : List Byte) : Option (List Block) := (pad m).bind parse

/-- The digest bytes of a hash state (R51): D[4i + j], each word most significant byte first. -/
def digestBytes (h : HashState) : List Byte := h.toList.flatMap wordBytes

end Sys2Proof.Machine
end

