-- ==== Sys2Proof/Machine/Reference.lean ====
section
/-! DEFINITION. The pure functions a claim about the hardware is stated against: the schedule (R140, R144), Compress (R155),
digest (R170); and the host's driver program (R77, R78, R173). -/

namespace Sys2Proof.Machine

/-- The first `n` words of the schedule of `M`, by the recurrence of R140, continued past index 79 by R144. -/
def schedulePrefix (M : Block) : Nat → List Word
  | 0 => []
  | n + 1 =>
    let ws := schedulePrefix M n
    ws ++ [if h : n < 16 then M[n]
           else scheduleMix (ws.getD (n - 3) 0#32) (ws.getD (n - 8) 0#32) (ws.getD (n - 14) 0#32) (ws.getD (n - 16) 0#32)]

/-- `W[t]` of the block `M` (R140, R144). -/
def schedule (M : Block) (t : Nat) : Word := (schedulePrefix M (t + 1)).getD t 0#32

/-- The working variables of R155. -/
structure Vars where
  a : Word
  b : Word
  c : Word
  d : Word
  e : Word
  deriving DecidableEq, Repr

/-- One iteration of R155, in the source's order (R151): f and temp from the old values, then e, d, c, b, a. -/
def iterate (t : Nat) (w : Word) (v : Vars) : Vars :=
  let f := roundFn (stageOf t) v.b v.c v.d
  let k := roundK (stageOf t)
  let temp := rotl5 v.a + f + v.e + k + w
  let v := { v with e := v.d }
  let v := { v with d := v.c }
  let v := { v with c := rotl30 v.b }
  let v := { v with b := v.a }
  { v with a := temp }

/-- The working variables of R155 after the iterations 0 .. n - 1. -/
def varsAfter (h : HashState) (M : Block) : Nat → Vars
  | 0 => { a := h[0], b := h[1], c := h[2], d := h[3], e := h[4] }
  | n + 1 => iterate n (schedule M n) (varsAfter h M n)

/-- `Compress(h, M)` (R155). -/
def compress (h : HashState) (M : Block) : HashState :=
  let v := varsAfter h M rounds
  addLanes h v.a v.b v.c v.d v.e

/-- The hash state after the blocks, in order, from `h` (R170). -/
def hashBlocks (h : HashState) (bs : List Block) : HashState := bs.foldl compress h

/-- `digest(m)` (R170); none exactly where Pad is undefined (R111). -/
def digest (m : List Byte) : Option (List Byte) :=
  (messageBlocks m).map fun bs => digestBytes (hashBlocks iv bs)

/-- `cmd NOP`, `cmd INIT`, `cmd START` (R77): a write of the command code to CMD. -/
def cmd (code : Word) : HostMove := .access (regWrite offCmd code)

/-- `wr MB<i>, v` (R77). -/
def wrBlockWord (i : BitVec 4) (v : Word) : HostMove := .access (regWrite (offBlock i) v)

/-- `rd H<i>` (R77). -/
def rdHash (i : BitVec 3) : HostMove := .access (regRead (offHash i))

/-- `wrblk` (R78): the sixteen writes in order. -/
def wrblk (M : Block) : List HostMove :=
  List.ofFn fun i : Fin 16 => wrBlockWord (BitVec.ofNat 4 i.val) M[i.val]

/-- `hashblk` (R78): wrblk, cmd START, wait. -/
def hashblk (M : Block) : List HostMove := wrblk M ++ [cmd 2#32, .wait]

/-- `rddigest` (R78). -/
def rddigest : List HostMove := [rdHash 0#3, rdHash 1#3, rdHash 2#3, rdHash 3#3, rdHash 4#3]

/-- The driver for a list of blocks (R173, R78). -/
def driverFor (bs : List Block) : List HostMove := cmd 1#32 :: bs.flatMap hashblk ++ rddigest

/-- The pseudo-instruction `digest m` (R78, R173). -/
def driver (m : List Byte) : Option (List HostMove) := (messageBlocks m).map driverFor

end Sys2Proof.Machine
end

