-- ==== Sys2Proof/Safety.lean ====
section
/-! DEFINITION. The words claims are stated in: the invariants of R31, the two agents' parts of the state, a compression in
progress (R142, R158), the end of a run (R212) and fairness as a premise (R13). -/

namespace Sys2Proof.Machine

/-- The invariants (i) to (iv) of R31; (v) is about the status view and holds of every state. -/
structure Inv (s : State) : Prop where
  t_le : s.t.toNat ≤ 80
  idle_t : s.busy = false → s.t = 0#7
  busy_done : s.busy = true → s.done = false
  err_code : s.err = false ↔ s.errcode = 0#4
  code_le : s.errcode.toNat ≤ 4

/-- The registers of R20, all 1358 bits of them, are the same in two states. -/
def SameRegisters (s u : State) : Prop :=
  s.h = u.h ∧ s.a = u.a ∧ s.b = u.b ∧ s.c = u.c ∧ s.d = u.d ∧ s.e = u.e ∧ s.ws = u.ws ∧ s.mb = u.mb ∧ s.t = u.t ∧
    s.busy = u.busy ∧ s.done = u.done ∧ s.err = u.err ∧ s.errcode = u.errcode

/-- The registers a ROUND or FINAL step reads or writes (R157) and the control state. -/
def SameEngine (s u : State) : Prop :=
  s.h = u.h ∧ s.a = u.a ∧ s.b = u.b ∧ s.c = u.c ∧ s.d = u.d ∧ s.e = u.e ∧ s.ws = u.ws ∧ s.t = u.t ∧
    s.busy = u.busy ∧ s.done = u.done

/-- What the host can observe, now or later, while the engine is idle: everything but the hidden `a..e` and `WS` (R32). -/
def SameVisible (s u : State) : Prop :=
  s.h = u.h ∧ s.mb = u.mb ∧ s.t = u.t ∧ s.busy = u.busy ∧ s.done = u.done ∧ s.err = u.err ∧ s.errcode = u.errcode ∧
    s.pending = u.pending ∧ s.replies = u.replies ∧ s.turns = u.turns ∧ s.tick = u.tick ∧ s.waited = u.waited

/-- The window invariant of R142: WS[i] = W[T + i] for the schedule of `M`. -/
def WindowHolds (M : Block) (s : State) : Prop :=
  ∀ i : Fin 16, s.ws[i] = schedule M (s.t.toNat + i.val)

/-- A compression of `M` onto `hv` in progress (R158): BUSY = 1, H still the old hash state, the window of R142, and the working
variables those of R155 after T iterations. -/
structure Compressing (hv : HashState) (M : Block) (s : State) : Prop where
  busy : s.busy = true
  not_done : s.done = false
  t_le : s.t.toNat ≤ 80
  hash : s.h = hv
  window : WindowHolds M s
  vars : ({ a := s.a, b := s.b, c := s.c, d := s.d, e := s.e } : Vars) = varsAfter hv M s.t.toNat

/-- A compression of `M` onto `hv` just completed (R158). -/
structure Compressed (hv : HashState) (M : Block) (s : State) : Prop where
  idle : s.busy = false
  done : s.done = true
  t_zero : s.t = 0#7
  hash : s.h = compress hv M
  vars : ({ a := s.a, b := s.b, c := s.c, d := s.d, e := s.e } : Vars) = varsAfter hv M 80
  window : ∀ i : Fin 16, s.ws[i] = schedule M (80 + i.val)

/-- How many of the next `k` steps from `s` are the engine's, under the interleaving `s` holds. -/
def engineStepsIn : Nat → State → Nat
  | 0, _ => 0
  | k + 1, s =>
    (if nextAgent s = some .engine then 1 else 0) +
      (match step s with
        | .next u => engineStepsIn k u
        | .fault _ => 0
        | .refused _ => 0)

/-- The step from `s` is a Reset by the host. -/
def resetsNext (s : State) : Prop := nextAgent s = some .host ∧ s.pending.head? = some .reset

/-- The effect of `raise Err(code)` on the rejected transaction of direction `k` (R181), written out: the error record and, for
a read, the returned 0; nothing else. -/
def RejectedWith (k : Kind) (code : BitVec 4) (s u : State) : Prop :=
  u = { s with
    err := true
    errcode := if s.err then s.errcode else code
    replies := match k with
      | .read => 0#32 :: s.replies
      | .write => s.replies }

/-- The effect of one ROUND with round function value `f` and constant `k` (R150, R141), register by register, and its frame. -/
structure RoundEffect (f k : Word) (s u : State) : Prop where
  a : u.a = s.a.rotateLeft 5 + f + s.e + k + s.ws[0]
  b : u.b = s.a
  c : u.c = s.b.rotateLeft 30
  d : u.d = s.c
  e : u.e = s.d
  shifted : ∀ (i : Nat) (h : i < 15), u.ws[i] = s.ws[i + 1]
  fresh : u.ws[15] = (s.ws[13] ^^^ s.ws[8] ^^^ s.ws[2] ^^^ s.ws[0]).rotateLeft 1
  t : u.t.toNat = s.t.toNat + 1
  frame : u = { s with a := u.a, b := u.b, c := u.c, d := u.d, e := u.e, ws := u.ws, t := u.t }

/-- The offsets of the window that R55 lists as reserved. -/
def ReservedOffset (off : Nat) : Prop :=
  (0x08 ≤ off ∧ off ≤ 0x1C) ∨ (0x34 ≤ off ∧ off ≤ 0x3C) ∨ (0x80 ≤ off ∧ off ≤ 0xFC)

/-- The offset condition of `BAD_ADDR` for an access (R180, R183). -/
def BadAddress (a : Access) : Prop :=
  a.width ≠ 32 ∨ 0xFF < a.off ∨ a.off % 4 ≠ 0 ∨ ReservedOffset a.off

/-- The direction condition of `BAD_ACCESS` for an access (R180, R184): a write to STATUS or H[i], or a read of CMD. -/
def BadDirection (a : Access) : Prop :=
  (a.kind = .write ∧ (a.off = 0x04 ∨ ∃ i, i ≤ 4 ∧ a.off = 0x20 + 4 * i)) ∨ (a.kind = .read ∧ a.off = 0x00)

/-- A way of bracketing and ordering two-input adders (R95). -/
inductive AddTree where
  | leaf (v : Word)
  | node (l r : AddTree)
  deriving DecidableEq, Repr

/-- The value an adder tree computes, each adder being R92. -/
def AddTree.value : AddTree → Word
  | .leaf v => v
  | .node l r => l.value + r.value

/-- The operands of an adder tree, left to right. -/
def AddTree.operands : AddTree → List Word
  | .leaf v => [v]
  | .node l r => l.operands ++ r.operands

/-- The run is over (R212): the host has made its last move and BUSY = 0. -/
def Ended (s : State) : Prop := s.pending = [] ∧ s.busy = false

/-- How many of the interleaving's recorded choices are the engine's (log 1, log 18). -/
def engineTurns (l : List Agent) : Nat := l.count .engine

end Sys2Proof.Machine
end

