-- ==== Sys2Proof/Certificates/Slice0/Obligations.lean ====
section
/-! DEFINITION. The statements for the provers, in the order of the spec's files. -/

open Sys2Proof Sys2Proof.Machine

/-! ### Encoding (30_encoding.md) -/

/-- R70, R76: every well-formed transaction row has a transaction word, and that word decodes to it, with every operand at every
value. -/
def Obligations.EncodedInstructionDecodesToItself : Prop :=
  ∀ i : Instr, i.wellFormed = true → i.isTransaction = true → ∃ tw, encode i = some tw ∧ decodeWord tw = .op i

/-- R70, R74, R76: what a transaction word decodes to is well formed, is never a sequencer row, and encodes back to the word in its
canonical form (the data field of a read written as 0). -/
def Obligations.DecodedWordEncodesToItsCanonicalForm : Prop :=
  ∀ (tw : TransactionWord) (i : Instr), decodeWord tw = .op i →
    i.wellFormed = true ∧ i.isTransaction = true ∧
      encode i = some (if tw.getLsbD 40 then tw else tw &&& 0x1FF00000000#41)

/-- R76: each row of the opcode map is selected exactly by its match and mask over the transaction word, with its fields and its
constraint (BUSY = 0 for INIT and START, idx <= 4 for RDH); each sequencer row exactly by its condition on (BUSY, T); and a
word that matches no encoded row is rejected. -/
def Obligations.OpcodeMapSelectsByMatchAndMask : Prop :=
  (∀ (tw : TransactionWord) (busy : Bool),
    (decodeWordWhile tw busy = .op .nop ↔ tw &&& 0x1FFFFFFFFFF#41 = 0x10000000000#41) ∧
    (decodeWordWhile tw busy = .op .init ↔ tw &&& 0x1FFFFFFFFFF#41 = 0x10000000001#41 ∧ busy = false) ∧
    (decodeWordWhile tw busy = .op .start ↔ tw &&& 0x1FFFFFFFFFF#41 = 0x10000000002#41 ∧ busy = false) ∧
    (∀ idx data, decodeWordWhile tw busy = .op (.wrmb idx data) ↔
      tw &&& 0x1C300000000#41 = 0x14000000000#41 ∧ idx = tw.extractLsb' 34 4 ∧ data = tw.extractLsb' 0 32) ∧
    (∀ idx, decodeWordWhile tw busy = .op (.rdmb idx) ↔
      tw &&& 0x1C300000000#41 = 0x04000000000#41 ∧ idx = tw.extractLsb' 34 4) ∧
    (∀ idx, decodeWordWhile tw busy = .op (.rdh idx) ↔
      tw &&& 0x1E300000000#41 = 0x02000000000#41 ∧ idx = tw.extractLsb' 34 3 ∧ idx.toNat ≤ 4) ∧
    (decodeWordWhile tw busy = .op .rdstatus ↔ tw &&& 0x1FF00000000#41 = 0x00400000000#41) ∧
    (∀ i, decodeWordWhile tw busy = .op i → i.isTransaction = true)) ∧
  (∀ s : State,
    (selectMicroOp s = some .roundCh ↔ s.busy = true ∧ s.t.toNat ≤ 19) ∧
    (selectMicroOp s = some .roundPar1 ↔ s.busy = true ∧ 20 ≤ s.t.toNat ∧ s.t.toNat ≤ 39) ∧
    (selectMicroOp s = some .roundMaj ↔ s.busy = true ∧ 40 ≤ s.t.toNat ∧ s.t.toNat ≤ 59) ∧
    (selectMicroOp s = some .roundPar2 ↔ s.busy = true ∧ 60 ≤ s.t.toNat ∧ s.t.toNat ≤ 79) ∧
    (selectMicroOp s = some .final ↔ s.busy = true ∧ s.t.toNat = 80) ∧
    (∀ i, selectMicroOp s = some i → i.isTransaction = false))

/-- R75, with the register map R72 written as ranges of offsets: the decoder is the first matching line, for every direction,
offset, data and BUSY. -/
def Obligations.DecoderIsItsFirstMatchingLine : Prop :=
  ∀ (k : Kind) (off : BitVec 8) (data : Word) (busy : Bool),
    (off.toNat % 4 ≠ 0 → decodeWhile k off data busy = .reject .badAddr) ∧
    (off.toNat % 4 = 0 →
      (ReservedOffset off.toNat → decodeWhile k off data busy = .reject .badAddr) ∧
      (k = .write → off.toNat = 0x04 → decodeWhile k off data busy = .reject .badAccess) ∧
      (∀ idx : Nat, idx ≤ 4 → off.toNat = 0x20 + 4 * idx →
        (k = .write → decodeWhile k off data busy = .reject .badAccess) ∧
        (k = .read → decodeWhile k off data busy = .op (.rdh (BitVec.ofNat 3 idx)))) ∧
      (k = .read → off.toNat = 0x00 → decodeWhile k off data busy = .reject .badAccess) ∧
      (k = .read → off.toNat = 0x04 → decodeWhile k off data busy = .op .rdstatus) ∧
      (∀ idx : Nat, idx ≤ 15 → off.toNat = 0x40 + 4 * idx →
        (k = .read → decodeWhile k off data busy = .op (.rdmb (BitVec.ofNat 4 idx))) ∧
        (k = .write → decodeWhile k off data busy = .op (.wrmb (BitVec.ofNat 4 idx) data))) ∧
      (k = .write → off.toNat = 0x00 →
        (3 ≤ data.toNat → decodeWhile k off data busy = .reject .illegalCmd) ∧
        (data.toNat = 0 → decodeWhile k off data busy = .op .nop) ∧
        (data.toNat = 1 ∨ data.toNat = 2 → busy = true → decodeWhile k off data busy = .reject .cmdWhileBusy) ∧
        (data.toNat = 1 → busy = false → decodeWhile k off data busy = .op .init) ∧
        (data.toNat = 2 → busy = false → decodeWhile k off data busy = .op .start)))

/-- R125, R126: a transaction is decoded against the current BUSY and then performs exactly the decoded operation or raises exactly
the decoded error. -/
def Obligations.TransactionIsDecodedAgainstBusy : Prop :=
  ∀ (a : Access) (tw : TransactionWord) (s : State), a.word? = some tw →
    (∀ i, decodeWordWhile tw s.busy = .op i → transact a s = exec i s) ∧
    (∀ k, decodeWordWhile tw s.busy = .reject k →
      ∃ u, transact a s = .next u ∧ RejectedWith a.kind (errCodeBits k) s u)

/-- Transaction words written out bit by bit from the encodings of R76 decode to the operations they stand for. -/
def Obligations.WordsOfEachFormatDecode : Prop :=
  decodeWord 0b1_00000000_00000000000000000000000000000000#41 = .op .nop ∧
  decodeWord 0b1_00000000_00000000000000000000000000000010#41 = .op .start ∧
  decodeWord 0b1_01111100_00000000000000000000000000011000#41 = .op (.wrmb 15#4 24#32) ∧
  decodeWord 0b0_01000100_00000000000000000000000000000000#41 = .op (.rdmb 1#4) ∧
  decodeWord 0b0_00110000_00000000000000000000000000000000#41 = .op (.rdh 4#3) ∧
  decodeWord 0b0_00000100_00010010001101000101011001111000#41 = .op .rdstatus ∧
  decodeWord 0b0_00110100_00000000000000000000000000000000#41 = .reject .badAddr

/-! ### Errors (60_exceptions.md) -/

/-- R180, R186: a transaction raises at most one error, the first that applies in the order BAD_ADDR, BAD_ACCESS, ILLEGAL_CMD,
CMD_WHILE_BUSY, and no error where none applies; the engine's steps raise none. -/
def Obligations.TransactionRaisesTheFirstErrorThatApplies : Prop :=
  (∀ (a : Access) (s : State), ∃ u, transact a s = .next u ∧
    (BadAddress a → RejectedWith a.kind 3#4 s u) ∧
    (¬ BadAddress a → BadDirection a → RejectedWith a.kind 4#4 s u) ∧
    (¬ BadAddress a → ¬ BadDirection a → a.kind = .write → a.off = 0x00 → 3 ≤ a.data.toNat →
      RejectedWith .write 2#4 s u) ∧
    (¬ BadAddress a → a.kind = .write → a.off = 0x00 → (a.data.toNat = 1 ∨ a.data.toNat = 2) → s.busy = true →
      RejectedWith .write 1#4 s u) ∧
    (¬ BadAddress a → ¬ BadDirection a →
      (a.kind = .write → a.off = 0x00 → a.data.toNat < 3 ∧ (s.busy = true → a.data.toNat = 0)) →
        u.err = s.err ∧ u.errcode = s.errcode)) ∧
  (∀ (i : Instr) (s : State), selectMicroOp s = some i →
    ∃ u, exec i s = .next u ∧ u.err = s.err ∧ u.errcode = s.errcode)

/-- R181: the whole effect of an error is its record (the first code is kept) and, for a read, the returned 0; only Reset clears the
record; and later transactions and engine steps run as if the error had not happened. -/
def Obligations.RaisedErrorIsRecordedKeptAndHarmless : Prop :=
  (∀ (k : Kind) (s : State),
    RejectedWith k 1#4 s (rejectWith k .cmdWhileBusy s) ∧ RejectedWith k 2#4 s (rejectWith k .illegalCmd s) ∧
    RejectedWith k 3#4 s (rejectWith k .badAddr s) ∧ RejectedWith k 4#4 s (rejectWith k .badAccess s)) ∧
  (∀ s u : State, step s = .next u → s.err = true → ¬ resetsNext s → u.err = true ∧ u.errcode = s.errcode) ∧
  (∀ (s : State) (er : Bool) (k : BitVec 4), ∃ u v : State,
    step s = .next u ∧ step { s with err := er, errcode := k } = .next v ∧
      SameEngine u v ∧ u.mb = v.mb ∧ u.pending = v.pending ∧ u.turns = v.turns ∧ u.tick = v.tick ∧ u.waited = v.waited)

/-- R183: BAD_ADDR is raised by exactly the misaligned, reserved and absent offsets and the widths other than 32 bits, reads and
writes alike; nothing but the error record changes and a rejected read returns 0. -/
def Obligations.BadAddrIsRaisedExactlyOnAbsentOffsets : Prop :=
  (∀ a : Access, decodeAccess a = .reject .badAddr ↔ BadAddress a) ∧
  (∀ (a : Access) (s : State), BadAddress a → ∃ u, transact a s = .next u ∧ RejectedWith a.kind 3#4 s u)

/-- R184: BAD_ACCESS is raised by exactly the writes to STATUS and H[i] and the reads of CMD, for every value written; nothing but
the error record changes and the rejected read returns 0. -/
def Obligations.BadAccessIsRaisedExactlyOnWrongDirection : Prop :=
  (∀ a : Access, decodeAccess a = .reject .badAccess ↔ a.width = 32 ∧ BadDirection a) ∧
  (∀ (v : Word) (s : State), ∃ u, transact (regWrite 0x04#8 v) s = .next u ∧ RejectedWith .write 4#4 s u) ∧
  (∀ (i : Nat) (v : Word) (s : State), i ≤ 4 →
    ∃ u, transact (regWrite (BitVec.ofNat 8 (0x20 + 4 * i)) v) s = .next u ∧ RejectedWith .write 4#4 s u) ∧
  (∀ s : State, ∃ u, transact (regRead 0x00#8) s = .next u ∧ RejectedWith .read 4#4 s u)

/-- R73, R185: of the 2^32 command words exactly 0, 1 and 2 are legal; every other one is ILLEGAL_CMD, whether BUSY is 0 or 1. -/
def Obligations.IllegalCommandWordsAreRejected : Prop :=
  (∀ v : Word, (∃ i, decodeAccess (regWrite 0x00#8 v) = .op i) ↔ v = 0#32 ∨ v = 1#32 ∨ v = 2#32) ∧
  (∀ (v : Word) (s : State), v ≠ 0#32 → v ≠ 1#32 → v ≠ 2#32 →
    ∃ u, transact (regWrite 0x00#8 v) s = .next u ∧ RejectedWith .write 2#4 s u)

/-! ### The step (00_scope.md R13, 20_memory.md R57, 70 R212) -/

/-- R57, R125: where it is the host's turn and its oldest move is an access, the step is exec of the decoded instruction, or the
rejection, on the state with that move and the used turn taken off. -/
def Obligations.StepRunsTheDecodedTransaction : Prop :=
  ∀ (s : State) (a : Access) (rest : List HostMove), nextAgent s = some .host → s.pending = .access a :: rest →
    (∀ i, decodeAccess a = .op i → step s = exec i { useTurn s with pending := rest }) ∧
    (∀ k, decodeAccess a = .reject k → step s = .next (rejectWith a.kind k { useTurn s with pending := rest }))

/-- R13, R71: where it is the engine's turn, the step is exec of the micro-operation that (BUSY, T) selects, and one is selected. -/
def Obligations.StepRunsTheSelectedMicroOperation : Prop :=
  ∀ s : State, nextAgent s = some .engine → ∃ i, selectMicroOp s = some i ∧ step s = exec i (useTurn s)

/-- Log 2: a transaction placed by withFetchWord is the very next step, on the state it was placed in. -/
def Obligations.FetchedWordIsTheNextStep : Prop :=
  ∀ (s : State) (nbits w : Nat) (i : Instr), decodeTableWord nbits w = some i → step (s.withFetchWord nbits w) = exec i s

/-- R13, R57, U10 (log 1, log 4, log 18): an agent that alone can move moves; where both can, the recorded interleaving decides, and
beyond its end the host moves as often as a free value of which nothing is known says, and then the engine; a Reset, which takes
the engine's step away, begins the count anew; where neither can, the machine keeps all its state (R192). -/
def Obligations.AgentsInterleaveAsRecorded : Prop :=
  ∀ s : State,
    (s.pending = [] → s.busy = false → step s = .next s) ∧
    (s.pending ≠ [] → s.busy = false → nextAgent s = some .host ∧ useTurn s = s) ∧
    (s.pending = [] → s.busy = true → s.t.toNat ≤ 80 → nextAgent s = some .engine ∧ useTurn s = s) ∧
    (s.pending ≠ [] → s.busy = true → s.t.toNat ≤ 80 →
      (∀ g rest, s.turns = g :: rest → nextAgent s = some g ∧ useTurn s = { s with turns := rest }) ∧
      (s.turns = [] →
        nextAgent s = some (if s.waited < Config.freeWait s.tick then .host else .engine) ∧
        useTurn s = (if s.waited < Config.freeWait s.tick ∧ s.pending.head? ≠ some .reset
          then { s with waited := s.waited + 1 } else { s with tick := s.tick + 1, waited := 0 })))

/-- R157, R188, R212: nothing blocks and nothing fails: from every state the machine answers a next state. -/
def Obligations.EveryStepAnswersANextState : Prop :=
  ∀ s : State, ∃ u, step s = .next u

/-- R78 (log 7): one poll of `wait` returns the status word and changes no register, and the wait is over when the bit 0 it read is 0. -/
def Obligations.WaitPollsUntilIdle : Prop :=
  ∀ (s : State) (rest : List HostMove), nextAgent s = some .host → s.pending = .wait :: rest →
    ∃ u, step s = .next u ∧ SameRegisters s u ∧ u.replies = statusWord s :: s.replies ∧
      u.pending = (if s.busy then .wait :: rest else rest)

/-! ### State and invariants (10_state.md) -/

/-- R31, R33: the invariants hold right after Reset, whatever the state before it. -/
def Obligations.InvariantsHoldAfterReset : Prop :=
  Inv State.reset ∧ ∀ s : State, Inv (applyReset s)

/-- R31: Reset establishes the invariants, and every step from a state that meets them, the host's or the engine's, leads to one that
meets them; the reserved STATUS bits read 0 in every state. -/
def Obligations.EveryStepKeepsTheInvariants : Prop :=
  Inv State.reset ∧ (∀ s u : State, Inv s → step s = .next u → Inv u) ∧
  (∀ s : State, (statusWord s).getLsbD 3 = false ∧ (statusWord s).extractLsb' 8 24 = 0#24)

/-- R21: H is written in exactly three ways: an accepted INIT sets it to IV, FINAL adds the working variables, Reset sets it to IV;
in particular it keeps its value from START to FINAL. -/
def Obligations.HashStateIsWrittenInThreeWays : Prop :=
  ∀ s u : State, step s = .next u →
    u.h = s.h ∨
    (nextAgent s = some .host ∧ s.busy = false ∧ (∃ a, s.pending.head? = some (.access a) ∧ decodeAccess a = .op .init) ∧
      u.h = iv) ∨
    (nextAgent s = some .engine ∧ s.busy = true ∧ s.t.toNat = 80 ∧
      u.h = #v[s.h[0] + s.a, s.h[1] + s.b, s.h[2] + s.c, s.h[3] + s.d, s.h[4] + s.e]) ∨
    (resetsNext s ∧ u.h = iv)

/-- R25: nothing but a host write to it and Reset changes MB, whether BUSY is 0 or 1. -/
def Obligations.BlockBufferIsWrittenByTheHostAlone : Prop :=
  ∀ s u : State, step s = .next u →
    u.mb = s.mb ∨
    (∃ a idx v, nextAgent s = some .host ∧ s.pending.head? = some (.access a) ∧ decodeAccess a = .op (.wrmb idx v) ∧
      u.mb = s.mb.set idx.toNat v idx.isLt) ∨
    (resetsNext s ∧ u.mb = Vector.replicate 16 0#32)

/-- R24, R27, R28, R154: the control state and DONE move only so: an accepted START, a ROUND (T + 1), FINAL at T = 80, an accepted
INIT (DONE cleared), Reset; every other step leaves all three. -/
def Obligations.ControlStateMovesOnlyBySequencing : Prop :=
  ∀ s u : State, step s = .next u →
    (u.busy = s.busy ∧ u.t = s.t ∧ u.done = s.done) ∨
    (nextAgent s = some .host ∧ s.busy = false ∧ (∃ a, s.pending.head? = some (.access a) ∧ decodeAccess a = .op .start) ∧
      u.busy = true ∧ u.t.toNat = 0 ∧ u.done = false) ∨
    (nextAgent s = some .engine ∧ s.busy = true ∧ s.t.toNat < 80 ∧
      u.busy = true ∧ u.t.toNat = s.t.toNat + 1 ∧ u.done = s.done) ∨
    (nextAgent s = some .engine ∧ s.busy = true ∧ s.t.toNat = 80 ∧ u.busy = false ∧ u.t.toNat = 0 ∧ u.done = true) ∨
    (nextAgent s = some .host ∧ s.busy = false ∧ (∃ a, s.pending.head? = some (.access a) ∧ decodeAccess a = .op .init) ∧
      u.busy = false ∧ u.t = s.t ∧ u.done = false) ∨
    (resetsNext s ∧ u.busy = false ∧ u.t.toNat = 0 ∧ u.done = false)

/-- R22, R26, R143: the working variables and the window are written by an accepted START, by ROUND and by Reset alone; FINAL, INIT and
every other step leave them. -/
def Obligations.WorkingRegistersAreWrittenByStartRoundReset : Prop :=
  ∀ s u : State, step s = .next u →
    (u.a = s.a ∧ u.b = s.b ∧ u.c = s.c ∧ u.d = s.d ∧ u.e = s.e ∧ u.ws = s.ws) ∨
    (nextAgent s = some .host ∧ s.busy = false ∧ (∃ a, s.pending.head? = some (.access a) ∧ decodeAccess a = .op .start) ∧
      u.a = s.h[0] ∧ u.b = s.h[1] ∧ u.c = s.h[2] ∧ u.d = s.h[3] ∧ u.e = s.h[4] ∧ u.ws = s.mb) ∨
    (nextAgent s = some .engine ∧ s.busy = true ∧ s.t.toNat < 80) ∨
    (resetsNext s ∧ u.a = 0#32 ∧ u.b = 0#32 ∧ u.c = 0#32 ∧ u.d = 0#32 ∧ u.e = 0#32 ∧ u.ws = Vector.replicate 16 0#32)

/-- R29: STATUS is the view of the flags, bit by bit and as the sum, in every state, 0 after Reset; its read returns it and changes
nothing else, and a write to its offset is rejected with BAD_ACCESS. -/
def Obligations.StatusIsAReadOnlyViewOfTheFlags : Prop :=
  (∀ s : State,
    (statusWord s).getLsbD 0 = s.busy ∧ (statusWord s).getLsbD 1 = s.done ∧ (statusWord s).getLsbD 2 = s.err ∧
    (statusWord s).getLsbD 3 = false ∧ (statusWord s).extractLsb' 4 4 = s.errcode ∧
    (statusWord s).extractLsb' 8 24 = 0#24 ∧
    (statusWord s).toNat = s.busy.toNat + 2 * s.done.toNat + 4 * s.err.toNat + 16 * s.errcode.toNat) ∧
  statusWord State.reset = 0#32 ∧
  (∀ s : State, transact (regRead 0x04#8) s = .next { s with replies := statusWord s :: s.replies }) ∧
  (∀ (v : Word) (s : State), ∃ u, transact (regWrite 0x04#8 v) s = .next u ∧ RejectedWith .write 4#4 s u)

/-- R128: the values RDSTATUS can return in a state that meets the invariants: idle, busy or done, and each of those with a recorded
error of code 1..4. -/
def Obligations.StatusValuesAreTheListedOnes : Prop :=
  ∀ s : State, Inv s → ∃ base : Word, (base = 0x00#32 ∨ base = 0x01#32 ∨ base = 0x02#32) ∧
    (statusWord s = base ∨ ∃ code : Nat, 1 ≤ code ∧ code ≤ 4 ∧ statusWord s = base + BitVec.ofNat 32 (0x04 + 16 * code))

/-- R32: the hidden registers are invisible: two idle states that differ only in a..e and WS stay indistinguishable to the host under
every number of steps (same H, MB, flags and returned values). -/
def Obligations.HiddenRegistersAreInvisible : Prop :=
  ∀ (s u : State), SameVisible s u → s.busy = false →
    ∀ (k : Nat) (s' : State), Sys2Proof.core.run k s = .next s' → ∃ u', Sys2Proof.core.run k u = .next u' ∧ SameVisible s' u'

/-- R200, R203: Reset, in any state, also while BUSY = 1, writes every register of R20 with the values of R33. That it leaves the host's
own side, `pending` and `replies`, as it is is the model's choice (log 14); R200 says nothing of them. -/
def Obligations.ResetWritesEveryRegister : Prop :=
  ∀ (s : State) (rest : List HostMove), nextAgent s = some .host → s.pending = .reset :: rest →
    ∃ u, step s = .next u ∧
      u.h = #v[0x67452301#32, 0xEFCDAB89#32, 0x98BADCFE#32, 0x10325476#32, 0xC3D2E1F0#32] ∧
      u.a = 0#32 ∧ u.b = 0#32 ∧ u.c = 0#32 ∧ u.d = 0#32 ∧ u.e = 0#32 ∧
      (∀ i : Fin 16, u.ws[i] = 0#32 ∧ u.mb[i] = 0#32) ∧
      u.t = 0#7 ∧ u.busy = false ∧ u.done = false ∧ u.err = false ∧ u.errcode = 0#4 ∧
      statusWord u = 0#32 ∧ engineReady u = false ∧ u.pending = rest ∧ u.replies = s.replies

/-! ### Transactions and commands (42_commands.md) -/

/-- R120, R121, R122: the three commands. NOP changes nothing in any state; INIT and START, while BUSY = 0, make exactly the listed
assignments, and while BUSY = 1 are rejected with code 1. -/
def Obligations.CommandsHaveExactlyTheirEffect : Prop :=
  ∀ s : State,
    exec .nop s = .next s ∧
    (s.busy = false →
      exec .init s = .next { s with
        h := #v[0x67452301#32, 0xEFCDAB89#32, 0x98BADCFE#32, 0x10325476#32, 0xC3D2E1F0#32], done := false }) ∧
    (s.busy = false →
      exec .start s = .next { s with
        a := s.h[0], b := s.h[1], c := s.h[2], d := s.h[3], e := s.h[4]
        ws := s.mb, t := 0#7, busy := true, done := false }) ∧
    (s.busy = true → ∃ u, exec .init s = .next u ∧ exec .start s = .next u ∧ RejectedWith .write 1#4 s u)

/-- R123: WRMB writes the one word of MB, in any state, and nothing else. -/
def Obligations.WrmbWritesOneWordOfTheBuffer : Prop :=
  ∀ (idx : BitVec 4) (v : Word) (s : State), ∃ u, exec (.wrmb idx v) s = .next u ∧
    (∀ i : Fin 16, u.mb[i] = if i.val = idx.toNat then v else s.mb[i]) ∧ u = { s with mb := u.mb }

/-- R124, R127, R128: the three reads return the register, in any state, and change nothing but what the host has been returned; for
RDH the indices 5..7 do not exist and the read is BAD_ADDR. -/
def Obligations.RegisterReadsReturnAndChangeNothing : Prop :=
  ∀ s : State,
    (∀ idx : BitVec 4, exec (.rdmb idx) s = .next { s with replies := s.mb[idx.toFin] :: s.replies }) ∧
    (∀ idx : Fin 5, exec (.rdh (BitVec.ofNat 3 idx.val)) s = .next { s with replies := s.h[idx] :: s.replies }) ∧
    (∀ idx : BitVec 3, 5 ≤ idx.toNat → ∃ u, exec (.rdh idx) s = .next u ∧ RejectedWith .read 3#4 s u) ∧
    exec .rdstatus s = .next { s with
      replies := BitVec.ofNat 32 (s.busy.toNat + 2 * s.done.toNat + 4 * s.err.toNat + 16 * s.errcode.toNat) :: s.replies }

/-- R56, R126, R208: a read transaction changes no register but, where it is rejected, the error record. -/
def Obligations.ReadTransactionsHaveNoSideEffect : Prop :=
  ∀ (a : Access) (s : State), a.kind = .read → ∃ u v, transact a s = .next u ∧ u.replies = v :: s.replies ∧
    ((∃ i, decodeAccess a = .op i) → SameRegisters s u) ∧
    ((∃ k, decodeAccess a = .reject k) → v = 0#32 ∧ SameEngine s u ∧ u.mb = s.mb)

/-! ### Operators (40_operators.md) -/

/-- R90: ROTL_n as the permutation of bits, its arithmetic form, the composition of two rotations, and that it loses no bit. -/
def Obligations.RotateLeftIsThePermutationOfBits : Prop :=
  ∀ (n : Nat) (x : Word), 0 < n → n < 32 →
    (∀ i, i < 32 → (rotl n x).getLsbD ((i + n) % 32) = x.getLsbD i) ∧
    (rotl n x).toNat = (x.toNat * 2 ^ n) % 2 ^ 32 + x.toNat / 2 ^ (32 - n) ∧
    (∀ m, 0 < m → m < 32 → rotl n (rotl m x) = if (n + m) % 32 = 0 then x else rotl ((n + m) % 32) x) ∧
    (∀ y : Word, rotl n x = rotl n y → x = y) ∧ rotl n 0#32 = 0#32 ∧ rotl n 0xFFFFFFFF#32 = 0xFFFFFFFF#32

/-- R94, R95: ADD5 is the integer sum modulo 2^32, and every bracketing and ordering of two-input adders over its five operands
computes the same word. -/
def Obligations.AdderTreeShapeDoesNotMatter : Prop :=
  ∀ v1 v2 v3 v4 v5 : Word,
    (add5 v1 v2 v3 v4 v5).toNat = (v1.toNat + v2.toNat + v3.toNat + v4.toNat + v5.toNat) % 2 ^ 32 ∧
    ∀ tr : AddTree, tr.operands.Perm [v1, v2, v3, v4, v5] → tr.value = add5 v1 v2 v3 v4 v5

/-- R97, R98: the selection of function and constant by the round index, the functions bit by bit, and their equal forms. -/
def Obligations.RoundFunctionsAndConstantsByIndex : Prop :=
  (∀ (t : Nat) (b c d : Word),
    (t < 20 → roundFn (stageOf t) b c d = (b &&& c) ||| (~~~b &&& d) ∧ roundK (stageOf t) = 0x5A827999#32) ∧
    (20 ≤ t → t < 40 → roundFn (stageOf t) b c d = b ^^^ c ^^^ d ∧ roundK (stageOf t) = 0x6ED9EBA1#32) ∧
    (40 ≤ t → t < 60 →
      roundFn (stageOf t) b c d = (b &&& c) ||| (b &&& d) ||| (c &&& d) ∧ roundK (stageOf t) = 0x8F1BBCDC#32) ∧
    (60 ≤ t → t < 80 → roundFn (stageOf t) b c d = b ^^^ c ^^^ d ∧ roundK (stageOf t) = 0xCA62C1D6#32)) ∧
  (∀ (b c d : Word) (i : Nat), i < 32 →
    (roundFn .ch b c d).getLsbD i = (if b.getLsbD i then c.getLsbD i else d.getLsbD i) ∧
    (roundFn .par1 b c d).getLsbD i = decide ((b.getLsbD i).toNat + (c.getLsbD i).toNat + (d.getLsbD i).toNat = 1 ∨
      (b.getLsbD i).toNat + (c.getLsbD i).toNat + (d.getLsbD i).toNat = 3) ∧
    (roundFn .maj b c d).getLsbD i =
      decide (2 ≤ (b.getLsbD i).toNat + (c.getLsbD i).toNat + (d.getLsbD i).toNat)) ∧
  (∀ b c d : Word,
    roundFn .ch b c d = (b &&& c) ^^^ (~~~b &&& d) ∧ roundFn .ch b c d = (b &&& c) + (~~~b &&& d) ∧
    roundFn .ch b c d = d ^^^ (b &&& (c ^^^ d)) ∧
    roundFn .maj b c d = (b &&& c) ||| (d &&& (b ||| c)) ∧
    roundFn .maj b c d = (b &&& c) ^^^ (b &&& d) ^^^ (c &&& d))

/-! ### Schedule and compression (43_schedule.md, 44_compress.md) -/

/-- R140, R144: the schedule is the block for t < 16 and the recurrence beyond, also past index 79; the all-zero block has the
all-zero schedule, and the schedule is linear over XOR. -/
def Obligations.ScheduleFollowsItsRecurrence : Prop :=
  ∀ M : Block,
    (∀ i : Fin 16, schedule M i.val = M[i]) ∧
    (∀ t, 16 ≤ t → schedule M t =
      (schedule M (t - 3) ^^^ schedule M (t - 8) ^^^ schedule M (t - 14) ^^^ schedule M (t - 16)).rotateLeft 1) ∧
    (∀ t, schedule (Vector.replicate 16 0#32) t = 0#32) ∧
    (∀ (M' : Block) (t : Nat),
      schedule (Vector.ofFn fun i : Fin 16 => M[i] ^^^ M'[i]) t = schedule M t ^^^ schedule M' t)

/-- R150, R97: each of the four ROUND rows, where (BUSY, T) selects it, makes exactly the assignments of R150 with the function and
the constant of its stage, whatever the registers hold. -/
def Obligations.RoundRowsComputeOneRound : Prop :=
  ∀ s : State, s.busy = true →
    (s.t.toNat ≤ 19 → ∃ u, exec .roundCh s = .next u ∧
      RoundEffect ((s.b &&& s.c) ||| (~~~s.b &&& s.d)) 0x5A827999#32 s u) ∧
    (20 ≤ s.t.toNat → s.t.toNat ≤ 39 → ∃ u, exec .roundPar1 s = .next u ∧
      RoundEffect (s.b ^^^ s.c ^^^ s.d) 0x6ED9EBA1#32 s u) ∧
    (40 ≤ s.t.toNat → s.t.toNat ≤ 59 → ∃ u, exec .roundMaj s = .next u ∧
      RoundEffect ((s.b &&& s.c) ||| (s.b &&& s.d) ||| (s.c &&& s.d)) 0x8F1BBCDC#32 s u) ∧
    (60 ≤ s.t.toNat → s.t.toNat ≤ 79 → ∃ u, exec .roundPar2 s = .next u ∧
      RoundEffect (s.b ^^^ s.c ^^^ s.d) 0xCA62C1D6#32 s u)

/-- R151: the simultaneous form of ROUND that the machine executes equals the source's sequential form that Compress is written in. -/
def Obligations.SimultaneousRoundEqualsSequentialRound : Prop :=
  ∀ (s : State) (i : Instr), selectMicroOp s = some i → s.t.toNat < 80 → ∃ u, exec i s = .next u ∧
    ({ a := u.a, b := u.b, c := u.c, d := u.d, e := u.e } : Vars) =
      iterate s.t.toNat s.ws[0] { a := s.a, b := s.b, c := s.c, d := s.d, e := s.e }

/-- R156: FINAL, where (BUSY, T) selects it, adds the five lanes modulo 2^32 and makes exactly the listed assignments. -/
def Obligations.FinalUpdatesTheHashState : Prop :=
  ∀ s : State, s.busy = true → s.t.toNat = 80 →
    exec .final s = .next { s with
      h := #v[s.h[0] + s.a, s.h[1] + s.b, s.h[2] + s.c, s.h[3] + s.d, s.h[4] + s.e]
      t := 0#7, busy := false, done := true }

/-- Log 5 (the model's choice, not a rule of the spec): exec of a sequencer row stops by name exactly where (BUSY, T) does not select
that row. -/
def Obligations.SequencerRowsStopWhereNotSelected : Prop :=
  ∀ (i : Instr) (s : State), i.isTransaction = false →
    (exec i s = .fault .microOpNotSelected ↔ selectMicroOp s ≠ some i)

/-- R142, R141: START puts the block into the window, every step of a compression keeps WS[i] = W[T + i], and so a round consumes
W[T]. -/
def Obligations.EveryStepKeepsTheScheduleWindow : Prop :=
  (∀ s u : State, s.busy = false → exec .start s = .next u → WindowHolds s.mb u) ∧
  (∀ (M : Block) (s u : State), s.busy = true → WindowHolds M s → step s = .next u → u.busy = true → WindowHolds M u) ∧
  (∀ (M : Block) (s : State), WindowHolds M s → s.ws[0] = schedule M s.t.toNat)

/-- R157: while BUSY = 1 exactly one engine step is enabled and it cannot fail, and no move of the host other than Reset changes a register that a ROUND
or FINAL step reads or writes. -/
def Obligations.HostCannotDisturbACompression : Prop :=
  ∀ s u : State, Inv s → s.busy = true →
    (∃ i, selectMicroOp s = some i ∧ (∃ v, exec i s = .next v) ∧
      (s.t.toNat < 80 → i ≠ .final) ∧ (s.t.toNat = 80 → i = .final)) ∧
    (nextAgent s = some .host → ¬ resetsNext s → step s = .next u → SameEngine s u)

/-- R158, R154: an accepted START begins a compression of MB onto H; every step other than a Reset keeps it in progress, with H still
the old hash state, until the FINAL step at T = 80, after which H = Compress(h, M). For every interleaving of host and engine. -/
def Obligations.EveryStepCarriesTheCompressionForward : Prop :=
  (∀ s : State, s.busy = false → ∃ u, exec .start s = .next u ∧ Compressing s.h s.mb u ∧ u.t = 0#7) ∧
  (∀ (hv : HashState) (M : Block) (s u : State), Compressing hv M s → ¬ resetsNext s → step s = .next u →
    (Compressing hv M u ∧
      (nextAgent s = some .host ∧ u.t = s.t ∨ nextAgent s = some .engine ∧ u.t.toNat = s.t.toNat + 1)) ∨
    (nextAgent s = some .engine ∧ s.t.toNat = 80 ∧ Compressed hv M u ∧ u.mb = s.mb ∧ u.err = s.err ∧ u.errcode = s.errcode))

/-- R158: the compression theorem, for every program of the host without Reset and every interleaving. From an accepted START, as long
as the engine has made n <= 80 steps the compression is in progress with T = n (so BUSY = 1 and H = h); its 81st step completes it:
H = Compress(h, M), BUSY = 0, DONE = 1, T = 0, a..e after round 79, WS[i] = W[80 + i], and that step leaves MB, ERR, ERRCODE alone.
Where the host makes no further move, the 81 steps are the next 81. -/
def Obligations.CompressionTakesExactly81EngineSteps : Prop :=
  ∀ s u : State, s.busy = false → HostMove.reset ∉ s.pending → exec .start s = .next u →
    (∀ (k : Nat) (v : State), Sys2Proof.core.run k u = .next v → engineStepsIn k u ≤ 80 →
      Compressing s.h s.mb v ∧ v.t.toNat = engineStepsIn k u) ∧
    (∀ (k : Nat) (v w : State), Sys2Proof.core.run k u = .next v → engineStepsIn k u = 80 → nextAgent v = some .engine →
      step v = .next w → Compressed s.h s.mb w ∧ w.mb = v.mb ∧ w.err = v.err ∧ w.errcode = v.errcode) ∧
    (s.pending = [] → engineStepsIn 81 u = 81 ∧ ∃ v, Sys2Proof.core.run 81 u = .next v ∧ Compressed s.h s.mb v ∧
      v.mb = s.mb ∧ v.err = s.err ∧ v.errcode = s.errcode)

/-! ### Padding, parsing, digest (41_padding_parse.md, 45_reference_function.md, 20_memory.md) -/

/-- R113, R110: Pad(m) has a positive multiple of 512 bits, begins with m, then 0x80, then zero bytes up to its last 8 bytes, which are
the length in bits, big-endian; and Pad is injective. -/
def Obligations.PaddedMessageHasItsShape : Prop :=
  (∀ m p : List Byte, pad m = some p →
    0 < p.length ∧ p.length % 64 = 0 ∧ p.take m.length = m ∧ p[m.length]? = some 0x80#8 ∧
    (∀ j, m.length < j → j + 8 < p.length → p[j]? = some 0x00#8) ∧
    (p.drop (p.length - 8)).foldl (fun n b => n * 256 + b.toNat) 0 = 8 * m.length) ∧
  (∀ m m' p : List Byte, pad m = some p → pad m' = some p → m = m')

/-- R112, R111: the number of blocks of Pad(m), the spill into a second block when 56 or more message bytes stand in the last one, and
the domain: Pad, and with it digest, is defined exactly for fewer than 2^61 bytes. -/
def Obligations.PaddingSpillsIntoASecondBlock : Prop :=
  (∀ m : List Byte, (pad m = none ↔ 2 ^ 61 ≤ m.length) ∧ (digest m = none ↔ 2 ^ 61 ≤ m.length)) ∧
  (∀ m p : List Byte, pad m = some p →
    p.length = 64 * ((m.length + 8) / 64 + 1) ∧
    (m.length % 64 ≤ 55 → p.length = m.length + 1 + (55 - m.length % 64) + 8) ∧
    (56 ≤ m.length % 64 → p.length = m.length + 1 + (119 - m.length % 64) + 8))

/-- R115, R50: Parse gives the blocks in order, word i of block k being the four bytes at 64k + 4i, the first the most significant. -/
def Obligations.ParsedWordsAreBigEndian : Prop :=
  ∀ (p : List Byte) (n : Nat), 0 < n → p.length = 64 * n → ∃ bs, parse p = some bs ∧ bs.length = n ∧
    ∀ (k : Nat) (M : Block), bs[k]? = some M → ∀ i : Fin 16, ∃ b0 b1 b2 b3 : Byte,
      p[64 * k + 4 * i.val]? = some b0 ∧ p[64 * k + 4 * i.val + 1]? = some b1 ∧
      p[64 * k + 4 * i.val + 2]? = some b2 ∧ p[64 * k + 4 * i.val + 3]? = some b3 ∧
      (M[i]).toNat = b0.toNat * 2 ^ 24 + b1.toNat * 2 ^ 16 + b2.toNat * 2 ^ 8 + b3.toNat

/-- R51: the digest bytes are D[4i + j] = H[i][31 - 8j : 24 - 8j], 20 of them. -/
def Obligations.DigestBytesAreBigEndian : Prop :=
  ∀ h : HashState, (digestBytes h).length = 20 ∧
    ∀ (i : Fin 5) (j : Nat), j < 4 → (digestBytes h)[4 * i.val + j]? = some ((h[i]).extractLsb' (24 - 8 * j) 8)

/-- R170, R171: digest is defined for every message of fewer than 2^61 bytes and has length exactly 20 bytes; it is the serialised
hash state after the message's blocks, from IV. -/
def Obligations.DigestHasTwentyBytes : Prop :=
  ∀ m : List Byte, m.length < 2 ^ 61 → ∃ bs d, messageBlocks m = some bs ∧ bs.length = (m.length + 8) / 64 + 1 ∧
    digest m = some d ∧ d = digestBytes (hashBlocks iv bs) ∧ d.length = 20

/-- R175: two messages that share a prefix of k whole blocks have the same first k blocks, so the same hash state after them. -/
def Obligations.SharedPrefixGivesTheSameHashState : Prop :=
  ∀ (pre x y : List Byte) (k : Nat) (bx bt : List Block), pre.length = 64 * k →
    messageBlocks (pre ++ x) = some bx → messageBlocks (pre ++ y) = some bt →
    bx.take k = bt.take k ∧
      hashBlocks iv bx = hashBlocks (hashBlocks iv (bt.take k)) (bx.drop k)

/-- R173: the driver on the machine, from any state with BUSY = 0, under every interleaving: whenever its run has ended, the five words
it read give digest(m), H is the last hash state, DONE = 1, and no transaction of it was rejected. -/
def Obligations.DriverComputesTheDigest : Prop :=
  ∀ (m : List Byte) (bs : List Block) (s : State), messageBlocks m = some bs → s.busy = false →
    s.pending = driverFor bs →
    ∀ (k : Nat) (u : State), Sys2Proof.core.run k s = .next u → Ended u →
      digest m = some ((u.replies.take 5).reverse.flatMap wordBytes) ∧ u.h = hashBlocks iv bs ∧ u.done = true ∧
      bs.getLast? = some u.mb ∧ u.err = s.err ∧ u.errcode = s.errcode

/-- R173, R211: the driver terminates, with a bound: where the recorded interleaving gives the engine its 81 turns per block, the run
ends, within one step per recorded turn and one per move of the driver. The premise, fairness counted in recorded turns, is the
model's choice (log 18), and so is the bound: that a step is one action of one agent, chosen by a recorded turn only where both
agents can move, is log 1 and log 4. R13, R173 and R211 say only that the engine eventually steps and the procedure ends. -/
def Obligations.DriverTerminatesUnderFairness : Prop :=
  ∀ (m : List Byte) (bs : List Block) (s : State), messageBlocks m = some bs → s.busy = false →
    s.pending = driverFor bs → 81 * bs.length ≤ engineTurns s.turns →
    ∃ (k : Nat) (u : State), k ≤ s.turns.length + 18 * bs.length + 6 ∧ Sys2Proof.core.run k s = .next u ∧ Ended u

/-! ### Fairness and the end of a run (00_scope.md R13, 70_reset_and_hazards.md R212) -/

/-- R13, R211 (weak fairness, in the model's own counting: log 1, log 18): while BUSY = 1 the engine eventually steps. From every such
state, whatever the host does, the engine's step or a Reset is the next step after at most as many steps as there are recorded
turns and moves left in the free value; until then no register that ROUND or FINAL reads or writes changes (R157). -/
def Obligations.EngineEventuallySteps : Prop :=
  ∀ s : State, s.busy = true → s.t.toNat ≤ 80 →
    ∃ (k : Nat) (u : State), k ≤ s.turns.length + (Config.freeWait s.tick - s.waited) ∧ Sys2Proof.core.run k s = .next u ∧
      SameEngine s u ∧ (nextAgent u = some .engine ∨ resetsNext u)

/-- R212, R13, R78, R211: every run ends. From every state that meets R31 (i), whatever moves the host's finite program lists (log 2; waits,
log 7, rejected accesses and Resets among them) and under every interleaving the model allows (weakly fair ones: log 1, log 18), the machine
reaches the state in which the last move is made and BUSY = 0; the driver of R173 is one such program. -/
def Obligations.EveryHostProgramEnds : Prop :=
  ∀ s : State, (s.busy = true → s.t.toNat ≤ 80) → ∃ (k : Nat) (u : State), Sys2Proof.core.run k s = .next u ∧ Ended u
end

