-- ==== Sys2Proof/Laws/Decode.lean ====
section
/-! SUPPORT. The small lemmas of the decoder and the encoder. -/

namespace Sys2Proof

/-- The bits of a transaction word, field by field (R70). -/
theorem packWord_getLsbD (k : Kind) (off : BitVec 8) (data : Word) (i : Nat) :
    (packWord k off data).getLsbD i =
      if i < 32 then data.getLsbD i else if i < 40 then off.getLsbD (i - 32) else (kindBit k).getLsbD (i - 40) := by
  have h1 := BitVec.getLsbD_append (x := kindBit k ++ off) (y := data) (i := i)
  have h2 := BitVec.getLsbD_append (x := kindBit k) (y := off) (i := i - 32)
  have h3 : (packWord k off data).getLsbD i = (kindBit k ++ off ++ data).getLsbD i := rfl
  rw [h3, h1]
  split
  · rfl
  · rw [h2]
    have : (i - 32 < 8) ↔ (i < 40) := by omega
    simp only [this, Nat.sub_sub]

theorem kindOfBit_packWord (k : Kind) (off : BitVec 8) (data : Word) :
    kindOfBit ((packWord k off data).getLsbD 40) = k := by
  rw [packWord_getLsbD, if_neg (by omega), if_neg (by omega)]
  cases k <;> rfl

theorem offset_packWord (k : Kind) (off : BitVec 8) (data : Word) : (packWord k off data).extractLsb' 32 8 = off := by
  ext i hi
  rw [BitVec.getElem_extractLsb', packWord_getLsbD, if_neg (by omega), if_pos (by omega)]
  simp [hi]

theorem data_packWord (k : Kind) (off : BitVec 8) (data : Word) : (packWord k off data).extractLsb' 0 32 = data := by
  ext i hi
  rw [BitVec.getElem_extractLsb', packWord_getLsbD, if_pos (by omega)]
  simp [hi]

/-- A transaction word is its three fields put together (R70). -/
theorem eq_packWord_of_fields (tw : TransactionWord) :
    tw = packWord (kindOfBit (tw.getLsbD 40)) (tw.extractLsb' 32 8) (tw.extractLsb' 0 32) := by
  apply BitVec.eq_of_getLsbD_eq
  intro i hi
  rw [packWord_getLsbD]
  by_cases h1 : i < 32
  · simp [h1]
  · by_cases h2 : i < 40
    · simp [h1, h2, show i - 32 < 8 by omega, show 32 + (i - 32) = i by omega]
    · obtain rfl : i = 40 := by omega
      cases tw.getLsbD 40 <;> simp [kindOfBit, kindBit]

theorem packWord_inj {k k' : Kind} {o o' : BitVec 8} {d d' : Word} :
    packWord k o d = packWord k' o' d' ↔ k = k' ∧ o = o' ∧ d = d' := by
  refine ⟨fun h => ⟨?_, ?_, ?_⟩, by rintro ⟨rfl, rfl, rfl⟩; rfl⟩
  · rw [← kindOfBit_packWord k o d, h, kindOfBit_packWord]
  · rw [← offset_packWord k o d, h, offset_packWord]
  · rw [← data_packWord k o d, h, data_packWord]

/-- Masking a transaction word masks its fields. -/
theorem packWord_and (k k' : Kind) (o o' : BitVec 8) (d d' : Word) :
    packWord k o d &&& packWord k' o' d' =
      packWord (if k = .write ∧ k' = .write then .write else .read) (o &&& o') (d &&& d') := by
  apply BitVec.eq_of_getLsbD_eq
  intro i hi
  rw [BitVec.getLsbD_and]
  simp only [packWord_getLsbD]
  by_cases h1 : i < 32
  · simp [h1]
  · by_cases h2 : i < 40
    · simp [h1, h2]
    · obtain rfl : i = 40 := by omega
      cases k <;> cases k' <;> simp [kindBit]

/-- Decoding a packed word decodes its fields (R70). -/
theorem decodeWord_packWord (k : Kind) (off : BitVec 8) (data : Word) :
    decodeWord (packWord k off data) = decodeFields k off data := by
  unfold decodeWord
  rw [kindOfBit_packWord, offset_packWord, data_packWord]

theorem decodeWordWhile_packWord (k : Kind) (off : BitVec 8) (data : Word) (busy : Bool) :
    decodeWordWhile (packWord k off data) busy = decodeWhile k off data busy := by
  unfold decodeWordWhile
  rw [kindOfBit_packWord, offset_packWord, data_packWord]

theorem word_regWrite (off : BitVec 8) (v : Word) : (regWrite off v).word? = some (packWord .write off v) := by
  have := off.isLt
  simp [regWrite, Access.word?, Access.wellFormed, this]

theorem word_regRead (off : BitVec 8) : (regRead off).word? = some (packWord .read off 0#32) := by
  have := off.isLt
  simp [regRead, Access.word?, Access.wellFormed, this]

theorem decodeAccess_regWrite (off : BitVec 8) (v : Word) : decodeAccess (regWrite off v) = decodeFields .write off v := by
  simp only [decodeAccess, word_regWrite, decodeWord_packWord]

theorem decodeAccess_regRead (off : BitVec 8) : decodeAccess (regRead off) = decodeFields .read off 0#32 := by
  simp only [decodeAccess, word_regRead, decodeWord_packWord]

/-- An access with a transaction word decodes by its fields; one without is BAD_ADDR (R54). -/
theorem decodeAccess_eq (a : Access) :
    decodeAccess a = if a.wellFormed then decodeFields a.kind (BitVec.ofNat 8 a.off) a.data else .reject .badAddr := by
  cases h : a.wellFormed <;> simp [decodeAccess, Access.word?, h, decodeWord_packWord]

theorem decodeCommand_isTransaction {data : Word} {i : Instr} (h : decodeCommand data = .op i) :
    i.isTransaction = true := by
  unfold decodeCommand at h
  split at h
  · cases h
  · split at h
    · cases h; rfl
    · split at h <;> (cases h; rfl)

/-- What the decoder answers is a transaction row: never a sequencer row (R71). -/
theorem decodeFields_isTransaction {k : Kind} {off : BitVec 8} {data : Word} {i : Instr}
    (h : decodeFields k off data = .op i) : i.isTransaction = true := by
  unfold decodeFields at h
  split at h
  · cases h
  · split at h <;> first
      | exact decodeCommand_isTransaction h
      | (cases h; rfl)
      | cases h

/-- The register map R72 as ranges of offsets (the map of R55): 256 offsets, checked one by one. -/
theorem selectTarget_by_range : ∀ off : BitVec 8,
    (off.extractLsb' 0 2 ≠ 0#2 ↔ off.toNat % 4 ≠ 0) ∧
    (off.extractLsb' 0 2 = 0#2 → selectTarget off =
      if (0x08 ≤ off.toNat ∧ off.toNat ≤ 0x1C) ∨ (0x34 ≤ off.toNat ∧ off.toNat ≤ 0x3C) ∨ 0x80 ≤ off.toNat then .reserved
      else if off.toNat = 0 then .cmd
      else if off.toNat = 4 then .status
      else if off.toNat < 0x40 then .hash (BitVec.ofNat 3 ((off.toNat - 0x20) / 4))
      else .block (BitVec.ofNat 4 ((off.toNat - 0x40) / 4))) := by
  decide +kernel

theorem decodeAccess_isTransaction {a : Access} {i : Instr} (h : decodeAccess a = .op i) : i.isTransaction = true := by
  rw [decodeAccess_eq] at h
  split at h
  · exact decodeFields_isTransaction h
  · cases h

end Sys2Proof
end

