-- ==== Sys2Proof/Laws/State.lean ====
section
/-! SUPPORT. One lemma per field of State and update of the machine, so that no proof unfolds a record update. -/

namespace Sys2Proof.Machine

section reply_fields
variable (v : Word) (s : State)

@[simp] theorem reply_h : (reply v s).h = s.h := rfl
@[simp] theorem reply_a : (reply v s).a = s.a := rfl
@[simp] theorem reply_b : (reply v s).b = s.b := rfl
@[simp] theorem reply_c : (reply v s).c = s.c := rfl
@[simp] theorem reply_d : (reply v s).d = s.d := rfl
@[simp] theorem reply_e : (reply v s).e = s.e := rfl
@[simp] theorem reply_ws : (reply v s).ws = s.ws := rfl
@[simp] theorem reply_mb : (reply v s).mb = s.mb := rfl
@[simp] theorem reply_t : (reply v s).t = s.t := rfl
@[simp] theorem reply_busy : (reply v s).busy = s.busy := rfl
@[simp] theorem reply_done : (reply v s).done = s.done := rfl
@[simp] theorem reply_err : (reply v s).err = s.err := rfl
@[simp] theorem reply_errcode : (reply v s).errcode = s.errcode := rfl
@[simp] theorem reply_pending : (reply v s).pending = s.pending := rfl
@[simp] theorem reply_replies : (reply v s).replies = v :: s.replies := rfl
@[simp] theorem reply_turns : (reply v s).turns = s.turns := rfl
@[simp] theorem reply_tick : (reply v s).tick = s.tick := rfl
@[simp] theorem reply_waited : (reply v s).waited = s.waited := rfl

end reply_fields

section applyReset_fields
variable (s : State)

@[simp] theorem applyReset_h : (applyReset s).h = State.reset.h := rfl
@[simp] theorem applyReset_a : (applyReset s).a = State.reset.a := rfl
@[simp] theorem applyReset_b : (applyReset s).b = State.reset.b := rfl
@[simp] theorem applyReset_c : (applyReset s).c = State.reset.c := rfl
@[simp] theorem applyReset_d : (applyReset s).d = State.reset.d := rfl
@[simp] theorem applyReset_e : (applyReset s).e = State.reset.e := rfl
@[simp] theorem applyReset_ws : (applyReset s).ws = State.reset.ws := rfl
@[simp] theorem applyReset_mb : (applyReset s).mb = State.reset.mb := rfl
@[simp] theorem applyReset_t : (applyReset s).t = State.reset.t := rfl
@[simp] theorem applyReset_busy : (applyReset s).busy = State.reset.busy := rfl
@[simp] theorem applyReset_done : (applyReset s).done = State.reset.done := rfl
@[simp] theorem applyReset_err : (applyReset s).err = State.reset.err := rfl
@[simp] theorem applyReset_errcode : (applyReset s).errcode = State.reset.errcode := rfl
@[simp] theorem applyReset_pending : (applyReset s).pending = s.pending := rfl
@[simp] theorem applyReset_replies : (applyReset s).replies = s.replies := rfl
@[simp] theorem applyReset_turns : (applyReset s).turns = s.turns := rfl
@[simp] theorem applyReset_tick : (applyReset s).tick = s.tick := rfl
@[simp] theorem applyReset_waited : (applyReset s).waited = s.waited := rfl

end applyReset_fields

section loadIv_fields
variable (s : State)

@[simp] theorem loadIv_h : (loadIv s).h = iv := rfl
@[simp] theorem loadIv_a : (loadIv s).a = s.a := rfl
@[simp] theorem loadIv_b : (loadIv s).b = s.b := rfl
@[simp] theorem loadIv_c : (loadIv s).c = s.c := rfl
@[simp] theorem loadIv_d : (loadIv s).d = s.d := rfl
@[simp] theorem loadIv_e : (loadIv s).e = s.e := rfl
@[simp] theorem loadIv_ws : (loadIv s).ws = s.ws := rfl
@[simp] theorem loadIv_mb : (loadIv s).mb = s.mb := rfl
@[simp] theorem loadIv_t : (loadIv s).t = s.t := rfl
@[simp] theorem loadIv_busy : (loadIv s).busy = s.busy := rfl
@[simp] theorem loadIv_done : (loadIv s).done = false := rfl
@[simp] theorem loadIv_err : (loadIv s).err = s.err := rfl
@[simp] theorem loadIv_errcode : (loadIv s).errcode = s.errcode := rfl
@[simp] theorem loadIv_pending : (loadIv s).pending = s.pending := rfl
@[simp] theorem loadIv_replies : (loadIv s).replies = s.replies := rfl
@[simp] theorem loadIv_turns : (loadIv s).turns = s.turns := rfl
@[simp] theorem loadIv_tick : (loadIv s).tick = s.tick := rfl
@[simp] theorem loadIv_waited : (loadIv s).waited = s.waited := rfl

end loadIv_fields

section loadBlock_fields
variable (s : State)

@[simp] theorem loadBlock_h : (loadBlock s).h = s.h := rfl
@[simp] theorem loadBlock_a : (loadBlock s).a = s.h[0] := rfl
@[simp] theorem loadBlock_b : (loadBlock s).b = s.h[1] := rfl
@[simp] theorem loadBlock_c : (loadBlock s).c = s.h[2] := rfl
@[simp] theorem loadBlock_d : (loadBlock s).d = s.h[3] := rfl
@[simp] theorem loadBlock_e : (loadBlock s).e = s.h[4] := rfl
@[simp] theorem loadBlock_ws : (loadBlock s).ws = s.mb := rfl
@[simp] theorem loadBlock_mb : (loadBlock s).mb = s.mb := rfl
@[simp] theorem loadBlock_t : (loadBlock s).t = 0#7 := rfl
@[simp] theorem loadBlock_busy : (loadBlock s).busy = true := rfl
@[simp] theorem loadBlock_done : (loadBlock s).done = false := rfl
@[simp] theorem loadBlock_err : (loadBlock s).err = s.err := rfl
@[simp] theorem loadBlock_errcode : (loadBlock s).errcode = s.errcode := rfl
@[simp] theorem loadBlock_pending : (loadBlock s).pending = s.pending := rfl
@[simp] theorem loadBlock_replies : (loadBlock s).replies = s.replies := rfl
@[simp] theorem loadBlock_turns : (loadBlock s).turns = s.turns := rfl
@[simp] theorem loadBlock_tick : (loadBlock s).tick = s.tick := rfl
@[simp] theorem loadBlock_waited : (loadBlock s).waited = s.waited := rfl

end loadBlock_fields

section writeBlock_fields
variable (idx : BitVec 4) (v : Word) (s : State)

@[simp] theorem writeBlock_h : (writeBlock idx v s).h = s.h := rfl
@[simp] theorem writeBlock_a : (writeBlock idx v s).a = s.a := rfl
@[simp] theorem writeBlock_b : (writeBlock idx v s).b = s.b := rfl
@[simp] theorem writeBlock_c : (writeBlock idx v s).c = s.c := rfl
@[simp] theorem writeBlock_d : (writeBlock idx v s).d = s.d := rfl
@[simp] theorem writeBlock_e : (writeBlock idx v s).e = s.e := rfl
@[simp] theorem writeBlock_ws : (writeBlock idx v s).ws = s.ws := rfl
@[simp] theorem writeBlock_mb : (writeBlock idx v s).mb = s.mb.set idx.toNat v idx.isLt := rfl
@[simp] theorem writeBlock_t : (writeBlock idx v s).t = s.t := rfl
@[simp] theorem writeBlock_busy : (writeBlock idx v s).busy = s.busy := rfl
@[simp] theorem writeBlock_done : (writeBlock idx v s).done = s.done := rfl
@[simp] theorem writeBlock_err : (writeBlock idx v s).err = s.err := rfl
@[simp] theorem writeBlock_errcode : (writeBlock idx v s).errcode = s.errcode := rfl
@[simp] theorem writeBlock_pending : (writeBlock idx v s).pending = s.pending := rfl
@[simp] theorem writeBlock_replies : (writeBlock idx v s).replies = s.replies := rfl
@[simp] theorem writeBlock_turns : (writeBlock idx v s).turns = s.turns := rfl
@[simp] theorem writeBlock_tick : (writeBlock idx v s).tick = s.tick := rfl
@[simp] theorem writeBlock_waited : (writeBlock idx v s).waited = s.waited := rfl

end writeBlock_fields

section roundUpdate_fields
variable (g : Stage) (s : State)

@[simp] theorem roundUpdate_h : (roundUpdate g s).h = s.h := rfl
@[simp] theorem roundUpdate_a : (roundUpdate g s).a = roundTemp g s.a s.b s.c s.d s.e s.ws[0] := rfl
@[simp] theorem roundUpdate_b : (roundUpdate g s).b = s.a := rfl
@[simp] theorem roundUpdate_c : (roundUpdate g s).c = rotl30 s.b := rfl
@[simp] theorem roundUpdate_d : (roundUpdate g s).d = s.c := rfl
@[simp] theorem roundUpdate_e : (roundUpdate g s).e = s.d := rfl
@[simp] theorem roundUpdate_ws : (roundUpdate g s).ws = shiftWindow s.ws := rfl
@[simp] theorem roundUpdate_mb : (roundUpdate g s).mb = s.mb := rfl
@[simp] theorem roundUpdate_t : (roundUpdate g s).t = s.t + 1#7 := rfl
@[simp] theorem roundUpdate_busy : (roundUpdate g s).busy = s.busy := rfl
@[simp] theorem roundUpdate_done : (roundUpdate g s).done = s.done := rfl
@[simp] theorem roundUpdate_err : (roundUpdate g s).err = s.err := rfl
@[simp] theorem roundUpdate_errcode : (roundUpdate g s).errcode = s.errcode := rfl
@[simp] theorem roundUpdate_pending : (roundUpdate g s).pending = s.pending := rfl
@[simp] theorem roundUpdate_replies : (roundUpdate g s).replies = s.replies := rfl
@[simp] theorem roundUpdate_turns : (roundUpdate g s).turns = s.turns := rfl
@[simp] theorem roundUpdate_tick : (roundUpdate g s).tick = s.tick := rfl
@[simp] theorem roundUpdate_waited : (roundUpdate g s).waited = s.waited := rfl

end roundUpdate_fields

section finalUpdate_fields
variable (s : State)

@[simp] theorem finalUpdate_h : (finalUpdate s).h = addLanes s.h s.a s.b s.c s.d s.e := rfl
@[simp] theorem finalUpdate_a : (finalUpdate s).a = s.a := rfl
@[simp] theorem finalUpdate_b : (finalUpdate s).b = s.b := rfl
@[simp] theorem finalUpdate_c : (finalUpdate s).c = s.c := rfl
@[simp] theorem finalUpdate_d : (finalUpdate s).d = s.d := rfl
@[simp] theorem finalUpdate_e : (finalUpdate s).e = s.e := rfl
@[simp] theorem finalUpdate_ws : (finalUpdate s).ws = s.ws := rfl
@[simp] theorem finalUpdate_mb : (finalUpdate s).mb = s.mb := rfl
@[simp] theorem finalUpdate_t : (finalUpdate s).t = 0#7 := rfl
@[simp] theorem finalUpdate_busy : (finalUpdate s).busy = false := rfl
@[simp] theorem finalUpdate_done : (finalUpdate s).done = true := rfl
@[simp] theorem finalUpdate_err : (finalUpdate s).err = s.err := rfl
@[simp] theorem finalUpdate_errcode : (finalUpdate s).errcode = s.errcode := rfl
@[simp] theorem finalUpdate_pending : (finalUpdate s).pending = s.pending := rfl
@[simp] theorem finalUpdate_replies : (finalUpdate s).replies = s.replies := rfl
@[simp] theorem finalUpdate_turns : (finalUpdate s).turns = s.turns := rfl
@[simp] theorem finalUpdate_tick : (finalUpdate s).tick = s.tick := rfl
@[simp] theorem finalUpdate_waited : (finalUpdate s).waited = s.waited := rfl

end finalUpdate_fields

section raiseErr_fields
variable (k : ErrorCode) (s : State)

@[simp] theorem raiseErr_h : (raiseErr k s).h = s.h := by
  unfold raiseErr; split <;> simp_all
@[simp] theorem raiseErr_a : (raiseErr k s).a = s.a := by
  unfold raiseErr; split <;> simp_all
@[simp] theorem raiseErr_b : (raiseErr k s).b = s.b := by
  unfold raiseErr; split <;> simp_all
@[simp] theorem raiseErr_c : (raiseErr k s).c = s.c := by
  unfold raiseErr; split <;> simp_all
@[simp] theorem raiseErr_d : (raiseErr k s).d = s.d := by
  unfold raiseErr; split <;> simp_all
@[simp] theorem raiseErr_e : (raiseErr k s).e = s.e := by
  unfold raiseErr; split <;> simp_all
@[simp] theorem raiseErr_ws : (raiseErr k s).ws = s.ws := by
  unfold raiseErr; split <;> simp_all
@[simp] theorem raiseErr_mb : (raiseErr k s).mb = s.mb := by
  unfold raiseErr; split <;> simp_all
@[simp] theorem raiseErr_t : (raiseErr k s).t = s.t := by
  unfold raiseErr; split <;> simp_all
@[simp] theorem raiseErr_busy : (raiseErr k s).busy = s.busy := by
  unfold raiseErr; split <;> simp_all
@[simp] theorem raiseErr_done : (raiseErr k s).done = s.done := by
  unfold raiseErr; split <;> simp_all
@[simp] theorem raiseErr_err : (raiseErr k s).err = true := by
  unfold raiseErr; split <;> simp_all
@[simp] theorem raiseErr_errcode : (raiseErr k s).errcode = (if s.err then s.errcode else errCodeBits k) := by
  unfold raiseErr; split <;> simp_all
@[simp] theorem raiseErr_pending : (raiseErr k s).pending = s.pending := by
  unfold raiseErr; split <;> simp_all
@[simp] theorem raiseErr_replies : (raiseErr k s).replies = s.replies := by
  unfold raiseErr; split <;> simp_all
@[simp] theorem raiseErr_turns : (raiseErr k s).turns = s.turns := by
  unfold raiseErr; split <;> simp_all
@[simp] theorem raiseErr_tick : (raiseErr k s).tick = s.tick := by
  unfold raiseErr; split <;> simp_all
@[simp] theorem raiseErr_waited : (raiseErr k s).waited = s.waited := by
  unfold raiseErr; split <;> simp_all

end raiseErr_fields

section useTurn_fields
variable (s : State)

@[simp] theorem useTurn_h : (useTurn s).h = s.h := by
  unfold useTurn; split <;> [(split <;> [skip; split]); skip] <;> rfl
@[simp] theorem useTurn_a : (useTurn s).a = s.a := by
  unfold useTurn; split <;> [(split <;> [skip; split]); skip] <;> rfl
@[simp] theorem useTurn_b : (useTurn s).b = s.b := by
  unfold useTurn; split <;> [(split <;> [skip; split]); skip] <;> rfl
@[simp] theorem useTurn_c : (useTurn s).c = s.c := by
  unfold useTurn; split <;> [(split <;> [skip; split]); skip] <;> rfl
@[simp] theorem useTurn_d : (useTurn s).d = s.d := by
  unfold useTurn; split <;> [(split <;> [skip; split]); skip] <;> rfl
@[simp] theorem useTurn_e : (useTurn s).e = s.e := by
  unfold useTurn; split <;> [(split <;> [skip; split]); skip] <;> rfl
@[simp] theorem useTurn_ws : (useTurn s).ws = s.ws := by
  unfold useTurn; split <;> [(split <;> [skip; split]); skip] <;> rfl
@[simp] theorem useTurn_mb : (useTurn s).mb = s.mb := by
  unfold useTurn; split <;> [(split <;> [skip; split]); skip] <;> rfl
@[simp] theorem useTurn_t : (useTurn s).t = s.t := by
  unfold useTurn; split <;> [(split <;> [skip; split]); skip] <;> rfl
@[simp] theorem useTurn_busy : (useTurn s).busy = s.busy := by
  unfold useTurn; split <;> [(split <;> [skip; split]); skip] <;> rfl
@[simp] theorem useTurn_done : (useTurn s).done = s.done := by
  unfold useTurn; split <;> [(split <;> [skip; split]); skip] <;> rfl
@[simp] theorem useTurn_err : (useTurn s).err = s.err := by
  unfold useTurn; split <;> [(split <;> [skip; split]); skip] <;> rfl
@[simp] theorem useTurn_errcode : (useTurn s).errcode = s.errcode := by
  unfold useTurn; split <;> [(split <;> [skip; split]); skip] <;> rfl
@[simp] theorem useTurn_pending : (useTurn s).pending = s.pending := by
  unfold useTurn; split <;> [(split <;> [skip; split]); skip] <;> rfl
@[simp] theorem useTurn_replies : (useTurn s).replies = s.replies := by
  unfold useTurn; split <;> [(split <;> [skip; split]); skip] <;> rfl

end useTurn_fields

section afterPoll_fields
variable (s : State)

@[simp] theorem afterPoll_h : (afterPoll s).h = s.h := by
  unfold afterPoll; split <;> rfl
@[simp] theorem afterPoll_a : (afterPoll s).a = s.a := by
  unfold afterPoll; split <;> rfl
@[simp] theorem afterPoll_b : (afterPoll s).b = s.b := by
  unfold afterPoll; split <;> rfl
@[simp] theorem afterPoll_c : (afterPoll s).c = s.c := by
  unfold afterPoll; split <;> rfl
@[simp] theorem afterPoll_d : (afterPoll s).d = s.d := by
  unfold afterPoll; split <;> rfl
@[simp] theorem afterPoll_e : (afterPoll s).e = s.e := by
  unfold afterPoll; split <;> rfl
@[simp] theorem afterPoll_ws : (afterPoll s).ws = s.ws := by
  unfold afterPoll; split <;> rfl
@[simp] theorem afterPoll_mb : (afterPoll s).mb = s.mb := by
  unfold afterPoll; split <;> rfl
@[simp] theorem afterPoll_t : (afterPoll s).t = s.t := by
  unfold afterPoll; split <;> rfl
@[simp] theorem afterPoll_busy : (afterPoll s).busy = s.busy := by
  unfold afterPoll; split <;> rfl
@[simp] theorem afterPoll_done : (afterPoll s).done = s.done := by
  unfold afterPoll; split <;> rfl
@[simp] theorem afterPoll_err : (afterPoll s).err = s.err := by
  unfold afterPoll; split <;> rfl
@[simp] theorem afterPoll_errcode : (afterPoll s).errcode = s.errcode := by
  unfold afterPoll; split <;> rfl
@[simp] theorem afterPoll_replies : (afterPoll s).replies = s.replies := by
  unfold afterPoll; split <;> rfl
@[simp] theorem afterPoll_turns : (afterPoll s).turns = s.turns := by
  unfold afterPoll; split <;> rfl
@[simp] theorem afterPoll_tick : (afterPoll s).tick = s.tick := by
  unfold afterPoll; split <;> rfl
@[simp] theorem afterPoll_waited : (afterPoll s).waited = s.waited := by
  unfold afterPoll; split <;> rfl

end afterPoll_fields

end Sys2Proof.Machine
end

