-- ==== Sys2Proof/Laws/Ops.lean ====
section
/-! SUPPORT. One lemma per shared operation: everything it can do. -/

namespace Sys2Proof.Machine

/-- `raise Err` writes the error record and nothing else (R181). -/
theorem raiseErr_eq (c : ErrorCode) (s : State) :
    raiseErr c s = { s with err := true, errcode := if s.err then s.errcode else errCodeBits c } := by
  unfold raiseErr
  split
  · cases s; simp_all
  · rfl

/-- A rejection is the error record and, for a read, the returned 0 (R181). -/
theorem rejectWith_spec (k : Kind) (c : ErrorCode) (s : State) :
    RejectedWith k (errCodeBits c) s (rejectWith k c s) := by
  cases k <;> simp [RejectedWith, rejectWith, raiseErr_eq, reply]

@[simp] theorem rejectWith_pending (k : Kind) (c : ErrorCode) (s : State) : (rejectWith k c s).pending = s.pending := by
  rw [rejectWith_spec k c s]

/-- A selected micro-operation runs; one that is not selected stops by name. -/
theorem whenSelected_eq_next {sel : Bool} {t u : State} : whenSelected sel t = .next u ↔ sel = true ∧ u = t := by
  cases sel <;> simp [whenSelected, eq_comm]

theorem whenSelected_true (t : State) : whenSelected true t = .next t := rfl

theorem shiftWindow_lt (ws : Block) (i : Nat) (h : i < 15) : (shiftWindow ws)[i] = ws[i + 1] := by
  have h' : i + 1 < 16 := by omega
  simp only [shiftWindow, Vector.getElem_ofFn, dif_pos h']

theorem shiftWindow_last (ws : Block) : (shiftWindow ws)[15] = scheduleMix ws[13] ws[8] ws[2] ws[0] := by
  simp [shiftWindow]

/-- ADD5 is the source's left-to-right chain (R95). -/
theorem add5_eq_chain (v1 v2 v3 v4 v5 : Word) : add5 v1 v2 v3 v4 v5 = v1 + v2 + v3 + v4 + v5 := by
  simp [add5, BitVec.ofNat_add]

/-- What each sequencer row can do: one lemma for all five. -/
theorem exec_microOp_next {i : Instr} {s u : State} (hi : i.isTransaction = false) (h : exec i s = .next u) :
    (i = .roundCh ∧ selectsCh s = true ∧ u = roundUpdate .ch s) ∨
    (i = .roundPar1 ∧ selectsPar1 s = true ∧ u = roundUpdate .par1 s) ∨
    (i = .roundMaj ∧ selectsMaj s = true ∧ u = roundUpdate .maj s) ∨
    (i = .roundPar2 ∧ selectsPar2 s = true ∧ u = roundUpdate .par2 s) ∨
    (i = .final ∧ selectsFinal s = true ∧ u = finalUpdate s) := by
  cases i <;> simp_all [Instr.isTransaction, exec, execRoundCh, execRoundPar1, execRoundMaj, execRoundPar2, execFinal,
    whenSelected_eq_next]

/-- What each transaction row does: it always answers a next state. -/
theorem exec_transaction_next {i : Instr} {s : State} (hi : i.isTransaction = true) :
    exec i s = .next
      (match i with
        | .init => if s.busy then rejectWith .write .cmdWhileBusy s else loadIv s
        | .start => if s.busy then rejectWith .write .cmdWhileBusy s else loadBlock s
        | .wrmb idx v => writeBlock idx v s
        | .rdmb idx => reply (readBlock idx s) s
        | .rdh idx => if h : idx.toNat < 5 then reply s.h[idx.toNat] s else rejectWith .read .badAddr s
        | .rdstatus => reply (statusWord s) s
        | _ => s) := by
  cases i <;> first
    | rfl
    | (simp only [exec, execInit, execStart, execRdh]; split <;> rfl)
    | cases hi

end Sys2Proof.Machine
end

