-- ==== Sys2Proof/Laws/PerInstr.lean ====
section
/-! SUPPORT. Statements made per instruction, about instructions as syntax. -/

namespace Sys2Proof.Laws.HasWord

/-- The encoder has a word for exactly the well-formed transaction rows (R71, R76). -/
def Statement (i : Instr) : Prop := (encode i).isSome = (i.wellFormed && i.isTransaction)

theorem nop : Statement .nop := rfl
theorem init : Statement .init := rfl
theorem start : Statement .start := rfl
theorem wrmb (idx : BitVec 4) (data : Word) : Statement (.wrmb idx data) := rfl
theorem rdmb (idx : BitVec 4) : Statement (.rdmb idx) := rfl
theorem rdh (idx : BitVec 3) : Statement (.rdh idx) := by
  by_cases h : idx.toNat ≤ 4 <;> simp [Statement, encode, Instr.wellFormed, Instr.isTransaction, h]
theorem rdstatus : Statement .rdstatus := rfl
theorem roundCh : Statement .roundCh := rfl
theorem roundPar1 : Statement .roundPar1 := rfl
theorem roundMaj : Statement .roundMaj := rfl
theorem roundPar2 : Statement .roundPar2 := rfl
theorem final : Statement .final := rfl

end Sys2Proof.Laws.HasWord
end

