-- ==== Sys2Proof/Laws/Reference.lean ====
section
/-! SUPPORT. The small lemmas of the host-side functions: lengths, the padding count, the words of a schedule prefix. -/

namespace Sys2Proof.Machine

@[simp] theorem wordBytes_length (w : Word) : (wordBytes w).length = 4 := rfl

@[simp] theorem len64_length (n : Nat) : (len64 n).length = 8 := rfl

/-- `z` is below 64 and brings the marker and the zeros to 56 modulo 64 (R110). -/
theorem padZeros_spec (len : Nat) : padZeros len < 64 ∧ (len + 1 + padZeros len) % 64 = 56 := by
  unfold padZeros
  omega

theorem pad_eq_some {m p : List Byte} :
    pad m = some p ↔ m.length < messageBound ∧
      p = m ++ 0x80#8 :: List.replicate (padZeros m.length) 0x00#8 ++ len64 (8 * m.length) := by
  unfold pad
  split <;> simp_all [eq_comm]

@[simp] theorem schedulePrefix_length (M : Block) (n : Nat) : (schedulePrefix M n).length = n := by
  induction n with
  | zero => rfl
  | succ n ih => simp [schedulePrefix, ih]

/-- A longer prefix of the schedule does not change its words. -/
theorem schedulePrefix_getD (M : Block) {n t : Nat} (h : t < n) : (schedulePrefix M n).getD t 0#32 = schedule M t := by
  induction n with
  | zero => omega
  | succ n ih =>
    by_cases ht : t = n
    · subst ht; rfl
    · have hlt : t < n := by omega
      rw [← ih hlt]
      simp [schedulePrefix, List.getD, List.getElem?_append, hlt]

end Sys2Proof.Machine
end

