-- ==== Sys2Proof/Laws/Step.lean ====
section
/-! SUPPORT. What a step can do, said once: the choice of the agent, each agent's move, the step. -/

namespace Sys2Proof.Machine

/-! ### The choice of the agent -/

theorem hostReady_iff {s : State} : hostReady s = true ↔ ∃ m rest, s.pending = m :: rest := by
  unfold hostReady
  cases s.pending <;> simp

theorem nextAgent_none {s : State} (h : nextAgent s = none) : hostReady s = false ∧ engineReady s = false := by
  unfold nextAgent contested at h
  cases hh : hostReady s <;> cases he : engineReady s <;> simp_all

theorem nextAgent_host {s : State} (h : nextAgent s = some .host) : hostReady s = true := by
  unfold nextAgent contested at h
  cases hh : hostReady s <;> cases he : engineReady s <;> simp_all

theorem nextAgent_engine {s : State} (h : nextAgent s = some .engine) : engineReady s = true := by
  unfold nextAgent contested at h
  cases hh : hostReady s <;> cases he : engineReady s <;> simp_all

theorem nextAgent_of_idle {s : State} (hh : hostReady s = false) (he : engineReady s = false) : nextAgent s = none := by
  simp [nextAgent, contested, hh, he]

theorem nextAgent_of_host_only {s : State} (hh : hostReady s = true) (he : engineReady s = false) :
    nextAgent s = some .host := by
  simp [nextAgent, contested, hh, he]

theorem nextAgent_of_engine_only {s : State} (hh : hostReady s = false) (he : engineReady s = true) :
    nextAgent s = some .engine := by
  simp [nextAgent, contested, hh, he]

theorem nextAgent_of_turn {s : State} {g : Agent} {rest : List Agent} (hh : hostReady s = true)
    (he : engineReady s = true) (ht : s.turns = g :: rest) : nextAgent s = some g := by
  simp [nextAgent, contested, hh, he, ht]

/-- Beyond `turns` the free choice decides where both agents can move. -/
theorem nextAgent_of_free {s : State} (h : contested s = true) (ht : s.turns = []) : nextAgent s = some (freeTurn s) := by
  simp [nextAgent, h, ht]

theorem freeTurn_cases (s : State) :
    (freeTurn s = .host ∧ s.waited < Config.freeWait s.tick) ∨ (freeTurn s = .engine ∧ Config.freeWait s.tick ≤ s.waited) := by
  unfold freeTurn
  split
  · exact .inl ⟨rfl, ‹_›⟩
  · exact .inr ⟨rfl, by omega⟩

/-- Where both can move, the engine's step comes as soon as the recorded turns and the free value's moves are used up. -/
theorem nextAgent_host_bound {s : State} (h : contested s = true) (hn : nextAgent s = some .host) :
    s.turns.head? = some .host ∨ (s.turns = [] ∧ s.waited < Config.freeWait s.tick) := by
  match ht : s.turns with
  | g :: _ => simp_all [nextAgent]
  | [] =>
    rw [nextAgent_of_free h ht, Option.some.injEq] at hn
    rcases freeTurn_cases s with ⟨-, hw⟩ | ⟨he, -⟩
    · exact .inr ⟨rfl, hw⟩
    · simp [he] at hn

/-! ### Using up a turn: registers and program stay -/

theorem useTurn_of_not_contested {s : State} (h : contested s = false) : useTurn s = s := by
  simp [useTurn, h]

theorem useTurn_of_turn {s : State} {g : Agent} {rest : List Agent} (h : contested s = true) (ht : s.turns = g :: rest) :
    useTurn s = { s with turns := rest } := by
  simp [useTurn, h, ht]

/-- A free turn of the host that leaves the engine's step enabled is counted. -/
theorem useTurn_of_wait {s : State} (h : contested s = true) (ht : s.turns = []) (hw : engineWaitsOn s = true) :
    useTurn s = { s with waited := s.waited + 1 } := by
  simp [useTurn, h, ht, hw]

/-- The engine's free turn, or a Reset, ends the stretch. -/
theorem useTurn_of_stretch_end {s : State} (h : contested s = true) (ht : s.turns = []) (hw : engineWaitsOn s = false) :
    useTurn s = { s with tick := s.tick + 1, waited := 0 } := by
  simp [useTurn, h, ht, hw]

/-- Using up a turn touches nothing but the interleaving. -/
theorem useTurn_eq (s : State) :
    useTurn s = { s with turns := (useTurn s).turns, tick := (useTurn s).tick, waited := (useTurn s).waited } := by
  unfold useTurn
  split
  · split
    · rfl
    · split <;> rfl
  · rfl

/-! ### The engine's selection -/

/-- The control state selects exactly one micro-operation (R76, R24). -/
theorem selectMicroOp_cases {s : State} {i : Instr} (h : selectMicroOp s = some i) :
    s.busy = true ∧
    ((i = .roundCh ∧ s.t.toNat ≤ 19) ∨ (i = .roundPar1 ∧ 20 ≤ s.t.toNat ∧ s.t.toNat ≤ 39) ∨
     (i = .roundMaj ∧ 40 ≤ s.t.toNat ∧ s.t.toNat ≤ 59) ∨ (i = .roundPar2 ∧ 60 ≤ s.t.toNat ∧ s.t.toNat ≤ 79) ∨
     (i = .final ∧ s.t.toNat = 80)) := by
  unfold selectMicroOp selectsCh selectsPar1 selectsMaj selectsPar2 selectsFinal at h
  cases hb : s.busy <;> simp_all
  split_ifs at h <;> simp_all

theorem engineReady_eq (s : State) : engineReady s = (s.busy && decide (s.t.toNat ≤ 80)) := by
  unfold engineReady selectMicroOp selectsCh selectsPar1 selectsMaj selectsPar2 selectsFinal
  cases hb : s.busy
  · simp
  · simp only [Bool.true_and, decide_eq_true_eq]
    split_ifs <;> simp <;> omega

/-- The stage of a ROUND step agrees with the stage of its index (R97). -/
theorem exec_selected {s u : State} {i : Instr} (h : selectMicroOp s = some i) (hu : SameEngine s u) :
    exec i u = .next (if s.t.toNat = 80 then finalUpdate u else roundUpdate (stageOf s.t.toNat) u) := by
  obtain ⟨hb, hc⟩ := selectMicroOp_cases h
  obtain ⟨-, -, -, -, -, -, -, ht, hbu, -⟩ := hu
  rw [hb] at hbu
  rcases hc with ⟨rfl, h1⟩ | ⟨rfl, h1, h2⟩ | ⟨rfl, h1, h2⟩ | ⟨rfl, h1, h2⟩ | ⟨rfl, h1⟩
  · have : s.t.toNat ≠ 80 := by omega
    simp [exec, execRoundCh, selectsCh, whenSelected, ← ht, ← hbu, this, stageOf, show s.t.toNat < 20 by omega, h1]
  · have : s.t.toNat ≠ 80 := by omega
    simp [exec, execRoundPar1, selectsPar1, whenSelected, ← ht, ← hbu, this, stageOf, show ¬ s.t.toNat < 20 by omega,
      show s.t.toNat < 40 by omega, h1, h2]
  · have : s.t.toNat ≠ 80 := by omega
    simp [exec, execRoundMaj, selectsMaj, whenSelected, ← ht, ← hbu, this, stageOf, show ¬ s.t.toNat < 20 by omega,
      show ¬ s.t.toNat < 40 by omega, show s.t.toNat < 60 by omega, h1, h2]
  · have : s.t.toNat ≠ 80 := by omega
    simp [exec, execRoundPar2, selectsPar2, whenSelected, ← ht, ← hbu, this, stageOf, show ¬ s.t.toNat < 20 by omega,
      show ¬ s.t.toNat < 40 by omega, show ¬ s.t.toNat < 60 by omega, h1, h2]
  · simp [exec, execFinal, selectsFinal, whenSelected, ← ht, ← hbu, h1]

theorem sameEngine_useTurn (s : State) : SameEngine s (useTurn s) := by simp [SameEngine]

/-! ### The two agents' turns -/

/-- A transaction always answers a next state (R125, R126, R188). -/
theorem transact_cases (a : Access) (s : State) :
    (∃ i, decodeAccess a = .op i ∧ i.isTransaction = true ∧ transact a s = exec i s) ∨
    (∃ k, decodeAccess a = .reject k ∧ transact a s = .next (rejectWith a.kind k s)) := by
  unfold transact
  cases h : decodeAccess a with
  | op i => exact .inl ⟨i, rfl, decodeAccess_isTransaction h, rfl⟩
  | reject k => exact .inr ⟨k, rfl, rfl⟩

/-- `rd STATUS` decodes to RDSTATUS (R72, R128). -/
theorem transact_rdStatus (s : State) : transact (regRead offStatus) s = .next (reply (statusWord s) s) := by
  have : decodeAccess (regRead offStatus) = .op .rdstatus := by decide
  simp [transact, this, exec, execRdstatus]

theorem statusWord_bit0 (s : State) : (statusWord s).getLsbD 0 = s.busy := by
  unfold statusWord
  generalize s.errcode = k
  cases s.busy <;> cases s.done <;> cases s.err <;> revert k <;> decide

/-- One poll of `wait` (R78): the status is returned, and `wait` stays while BUSY = 1. -/
theorem hostMove_wait (s : State) :
    hostMove .wait s =
      .next { s with replies := statusWord s :: s.replies, pending := if s.busy then .wait :: s.pending else s.pending } := by
  have h := statusWord_bit0 s
  simp only [hostMove, transact_rdStatus, afterPoll, reply, List.headD_cons, h]
  cases s.busy <;> simp

/-- What the host's turn can be. -/
theorem hostTurn_cases {s : State} (h : hostReady s = true) :
    ∃ m rest, s.pending = m :: rest ∧ hostTurn s = hostMove m { useTurn s with pending := rest } := by
  obtain ⟨m, rest, hp⟩ := hostReady_iff.1 h
  exact ⟨m, rest, hp, by simp [hostTurn, hp]⟩

/-- What the engine's turn is: the round of index T, or FINAL at T = 80 (R150, R156, R97). -/
theorem engineTurn_eq {s : State} (h : engineReady s = true) :
    engineTurn s =
      .next (if s.t.toNat = 80 then finalUpdate (useTurn s) else roundUpdate (stageOf s.t.toNat) (useTurn s)) := by
  unfold engineReady at h
  obtain ⟨i, hi⟩ := Option.isSome_iff_exists.1 h
  simp only [engineTurn, hi]
  exact exec_selected hi (sameEngine_useTurn s)

/-- What a move of the host leaves alone but for the error record, the returned values and the program: every register.
The record is kept, or, where none was held, a new code of R180 is recorded. -/
def OnlyRecords (s u : State) : Prop :=
  ∃ p er k r, u = { s with pending := p, err := er, errcode := k, replies := r } ∧
    ((er = s.err ∧ k = s.errcode) ∨ (s.err = false ∧ er = true ∧ ∃ c, k = errCodeBits c))

theorem onlyRecords_reject (k : Kind) (c : ErrorCode) (s : State) : OnlyRecords s (rejectWith k c s) := by
  refine ⟨_, _, _, _, rejectWith_spec k c s, ?_⟩
  cases h : s.err
  · exact .inr ⟨rfl, rfl, c, by simp⟩
  · exact .inl (by simp)

theorem onlyRecords_reply (v : Word) (s : State) : OnlyRecords s (reply v s) := ⟨_, _, _, _, rfl, .inl ⟨rfl, rfl⟩⟩

/-- Everything a move of the host can do (R212): Reset, an accepted INIT, an accepted START, a write of one word of MB; every other
move touches no register but the error record. It always answers a next state. -/
theorem hostMove_cases (m : HostMove) (s : State) : ∃ u, hostMove m s = .next u ∧
    ((m = .reset ∧ u = applyReset s) ∨
     (∃ a, m = .access a ∧ decodeAccess a = .op .init ∧ s.busy = false ∧ u = loadIv s) ∨
     (∃ a, m = .access a ∧ decodeAccess a = .op .start ∧ s.busy = false ∧ u = loadBlock s) ∨
     (∃ a idx v, m = .access a ∧ decodeAccess a = .op (.wrmb idx v) ∧ u = writeBlock idx v s) ∨
     (m ≠ .reset ∧ OnlyRecords s u)) := by
  have records : ∀ {a u}, OnlyRecords s u → (HostMove.access a ≠ .reset ∧ OnlyRecords s u) := fun h => ⟨by simp, h⟩
  cases m with
  | reset => exact ⟨_, rfl, .inl ⟨rfl, rfl⟩⟩
  | wait => exact ⟨_, hostMove_wait s, .inr (.inr (.inr (.inr ⟨by simp, _, _, _, _, rfl, .inl ⟨rfl, rfl⟩⟩)))⟩
  | access a =>
    rcases transact_cases a s with ⟨i, hd, hi, ht⟩ | ⟨k, hd, ht⟩
    · refine ⟨_, by rw [hostMove, ht, exec_transaction_next hi], ?_⟩
      cases i with
      | init =>
        cases hb : s.busy
        · exact .inr (.inl ⟨a, rfl, hd, rfl, by simp⟩)
        · exact .inr (.inr (.inr (.inr (records (by simpa [hb] using onlyRecords_reject .write .cmdWhileBusy s)))))
      | start =>
        cases hb : s.busy
        · exact .inr (.inr (.inl ⟨a, rfl, hd, rfl, by simp⟩))
        · exact .inr (.inr (.inr (.inr (records (by simpa [hb] using onlyRecords_reject .write .cmdWhileBusy s)))))
      | wrmb idx v => exact .inr (.inr (.inr (.inl ⟨a, idx, v, rfl, hd, rfl⟩)))
      | nop => exact .inr (.inr (.inr (.inr (records ⟨_, _, _, _, rfl, .inl ⟨rfl, rfl⟩⟩))))
      | rdmb idx => exact .inr (.inr (.inr (.inr (records (onlyRecords_reply _ s)))))
      | rdstatus => exact .inr (.inr (.inr (.inr (records (onlyRecords_reply _ s)))))
      | rdh idx =>
        refine .inr (.inr (.inr (.inr (records ?_))))
        dsimp only
        split
        · exact onlyRecords_reply _ s
        · exact onlyRecords_reject _ _ s
      | _ => cases hi
    · exact ⟨_, ht, .inr (.inr (.inr (.inr (records (onlyRecords_reject _ _ s)))))⟩

/-- No move of the host touches the interleaving. -/
theorem hostMove_interleaving {m : HostMove} {s u : State} (h : hostMove m s = .next u) :
    u.turns = s.turns ∧ u.tick = s.tick ∧ u.waited = s.waited := by
  obtain ⟨v, hv, hc⟩ := hostMove_cases m s
  cases hv.symm.trans h
  rcases hc with ⟨-, rfl⟩ | ⟨_, -, -, -, rfl⟩ | ⟨_, -, -, -, rfl⟩ | ⟨_, _, _, -, -, rfl⟩ | ⟨-, _, _, _, _, rfl, -⟩ <;>
    exact ⟨rfl, rfl, rfl⟩

/-- A transaction leaves the rest of the host's program. -/
theorem transact_pending {a : Access} {s u : State} (h : transact a s = .next u) : u.pending = s.pending := by
  rcases transact_cases a s with ⟨i, -, hi, ht⟩ | ⟨k, -, ht⟩
  · rw [ht, exec_transaction_next hi] at h
    cases h
    split <;> (try split) <;> simp
  · rw [ht] at h
    cases h
    simp

/-- Every move of the host is made once, but for a `wait` that finds BUSY = 1 (R78). -/
theorem hostMove_pending {m : HostMove} {s u : State} (h : hostMove m s = .next u) :
    u.pending = s.pending ∨ (m = .wait ∧ s.busy = true ∧ u.pending = .wait :: s.pending) := by
  cases m with
  | reset => cases h; exact .inl rfl
  | access a => exact .inl (transact_pending h)
  | wait =>
    rw [hostMove_wait] at h
    cases h
    cases hb : s.busy
    · exact .inl (by simp)
    · exact .inr ⟨rfl, rfl, by simp⟩

/-! ### The step -/

/-- Everything a step can do: nothing where neither agent has a move, one move of the host, or one step of the engine. -/
theorem step_cases (s : State) :
    (nextAgent s = none ∧ step s = .next s) ∨
    (nextAgent s = some .host ∧
      ∃ m rest, s.pending = m :: rest ∧ step s = hostMove m { useTurn s with pending := rest }) ∨
    (nextAgent s = some .engine ∧ s.busy = true ∧ s.t.toNat < 80 ∧
      step s = .next (roundUpdate (stageOf s.t.toNat) (useTurn s))) ∨
    (nextAgent s = some .engine ∧ s.busy = true ∧ s.t.toNat = 80 ∧ step s = .next (finalUpdate (useTurn s))) := by
  cases hn : nextAgent s with
  | none => exact .inl ⟨rfl, by simp [step, hn]⟩
  | some g =>
    cases g with
    | host =>
      obtain ⟨m, rest, hp, ht⟩ := hostTurn_cases (nextAgent_host hn)
      exact .inr (.inl ⟨rfl, m, rest, hp, by simp [step, hn, ht]⟩)
    | engine =>
      have he := nextAgent_engine hn
      have ht := engineTurn_eq he
      rw [engineReady_eq, Bool.and_eq_true, decide_eq_true_eq] at he
      by_cases h80 : s.t.toNat = 80
      · exact .inr (.inr (.inr ⟨rfl, he.1, h80, by simp [step, hn, ht, h80]⟩))
      · exact .inr (.inr (.inl ⟨rfl, he.1, by omega, by simp [step, hn, ht, h80]⟩))

/-- Where it is the host's turn, the step is its oldest move. -/
theorem step_host {s : State} {m : HostMove} {rest : List HostMove} (hn : nextAgent s = some .host)
    (hp : s.pending = m :: rest) : step s = hostMove m { useTurn s with pending := rest } := by
  simp [step, hn, hostTurn, hp]

/-- A move of the host during a compression that is no Reset: no register of the engine changes (R157), and what is left of the
recorded turns and of the free value's moves before the engine's step gets smaller (R13). -/
theorem step_host_while_busy {s : State} (hb : s.busy = true) (ht : s.t.toNat ≤ 80) (hn : nextAgent s = some .host)
    (hr : ¬ resetsNext s) :
    ∃ u, step s = .next u ∧ SameEngine s u ∧
      u.turns.length + (Config.freeWait u.tick - u.waited) < s.turns.length + (Config.freeWait s.tick - s.waited) := by
  obtain ⟨m, rest, hp⟩ := hostReady_iff.1 (nextAgent_host hn)
  have hc : contested s = true := by simp [contested, engineReady_eq, hb, ht, hostReady, hp]
  have hm : m ≠ .reset := by
    rintro rfl
    exact hr ⟨hn, by simp [hp]⟩
  obtain ⟨u, hu, hcases⟩ := hostMove_cases m { useTurn s with pending := rest }
  obtain ⟨hturns, htick, hwaited⟩ := hostMove_interleaving hu
  refine ⟨u, (step_host hn hp).trans hu, ?_, ?_⟩
  · rcases hcases with ⟨h, _⟩ | ⟨_, _, _, h, _⟩ | ⟨_, _, _, h, _⟩ | ⟨_, _, _, _, _, rfl⟩ | ⟨_, _, _, _, _, rfl, _⟩
    · exact absurd h hm
    · simp [hb] at h
    · simp [hb] at h
    · simp [SameEngine]
    · simp [SameEngine]
  · rw [hturns, htick, hwaited]
    rcases nextAgent_host_bound hc hn with h | ⟨h, hw⟩
    · match hts : s.turns, h with
      | _ :: _, _ => simp [useTurn_of_turn hc hts]
    · have hwait : engineWaitsOn s = true := by simp [engineWaitsOn, freeTurn, hw, hp, hm]
      simp only [useTurn_of_wait hc h hwait]
      omega

/-- A transaction that `withFetchWord` places is the very next step, on the state it was placed in. -/
theorem step_placeAccess (a : Access) (s : State) : step (placeAccess a s) = transact a s := by
  have hh : hostReady (placeAccess a s) = true := rfl
  have he : engineReady (placeAccess a s) = engineReady s := rfl
  have hp : (placeAccess a s).pending = .access a :: s.pending := rfl
  cases hr : engineReady s with
  | true =>
    have hc : contested (placeAccess a s) = true := by simp [contested, hh, he, hr]
    have ht : (placeAccess a s).turns = .host :: s.turns := by simp [placeAccess, hr]
    rw [step_host (nextAgent_of_turn hh (he.trans hr) ht) hp, useTurn_of_turn hc ht]
    rfl
  | false =>
    have hc : contested (placeAccess a s) = false := by simp [contested, he, hr]
    rw [step_host (nextAgent_of_host_only hh (he.trans hr)) hp, useTurn_of_not_contested hc]
    have ht : (placeAccess a s).turns = s.turns := by simp [placeAccess, hr]
    have : ({ placeAccess a s with pending := s.pending } : State) = s := by
      cases s; simp_all [placeAccess]
    simp only [hostMove, this]

end Sys2Proof.Machine
end

