-- ==== Sys2Proof/Tests/Slice0.lean ====
section
/-! SUPPORT. Tests on values of the spec's own examples and vectors (40, 41, 42, 44, 60, 95_test_vectors.md), the smoke test of the
well-formedness checks, and a witness for the hypotheses of every statement. -/

namespace Sys2Proof.Machine.Tests

/-! ### Small states -/

/-- The "abc" block (R115). -/
def abcBlock : Block := #v[0x61626380#32, 0#32, 0#32, 0#32, 0#32, 0#32, 0#32, 0#32, 0#32, 0#32, 0#32, 0#32, 0#32, 0#32, 0#32, 0x18#32]

/-- After Reset, with the "abc" block in MB. -/
def loaded : State := { State.reset with mb := abcBlock }

/-- A compression of the "abc" block in progress at round `t` (not a reachable state for t > 0; R150's vectors choose such states). -/
def busyAt (t : BitVec 7) : State := { loadBlock loaded with t := t }

/-- The state of the vectors V-RND2.6 to V-RND2.12: a..e = 1..5, WS[0] = 6. -/
def vecAt (t : BitVec 7) : State :=
  { busyAt t with a := 1#32, b := 2#32, c := 3#32, d := 4#32, e := 5#32, ws := (Vector.replicate 16 0#32).set 0 6#32 }

/-- The state an outcome leads to; where it leads to none, the state right after Reset. -/
def outState : Host.Outcome State Fault Refusal → State
  | .next u => u
  | .fault _ => State.reset
  | .refused _ => State.reset

/-- The working variables of a state. -/
def varsOf (s : State) : Vars := { a := s.a, b := s.b, c := s.c, d := s.d, e := s.e }

/-- A state whose host has one move left. -/
def withMove (m : HostMove) (s : State) : State := { s with pending := [m] }

/-! ### Well-formedness smoke -/

theorem test_wellFormed_refuses_h5 : Instr.wellFormed (.rdh 5#3) = false := by decide
theorem test_wellFormed_admits_h4 : Instr.wellFormed (.rdh 4#3) = true := by decide
theorem test_access_refuses_width : Access.wellFormed { kind := .read, off := 4, width := 16, data := 0#32 } = false := by decide
theorem test_access_refuses_offset : Access.wellFormed { kind := .read, off := 256, width := 32, data := 0#32 } = false := by decide

/-! ### Decoding (R76 bit patterns; 95_test_vectors.md V-DEC) -/

theorem test_decode_nop : decodeWord 0b1_00000000_00000000000000000000000000000000#41 = .op .nop := by decide
theorem test_decode_init : decodeWord 0b1_00000000_00000000000000000000000000000001#41 = .op .init := by decide
theorem test_decode_start : decodeWord 0b1_00000000_00000000000000000000000000000010#41 = .op .start := by decide
theorem test_decode_wrmb : decodeWord 0b1_01111100_00000000000000000000000000011000#41 = .op (.wrmb 15#4 24#32) := by decide
theorem test_decode_rdmb : decodeWord 0b0_01000100_00000000000000000000000000000000#41 = .op (.rdmb 1#4) := by decide
theorem test_decode_rdh : decodeWord 0b0_00110000_00000000000000000000000000000000#41 = .op (.rdh 4#3) := by decide
theorem test_decode_rdstatus : decodeWord 0b0_00000100_00000000000000000000000000000000#41 = .op .rdstatus := by decide
/-- V-DEC4, V-DEC5, V-DEC6, V-DEC7. -/
theorem test_decode_illegal :
    [0x10000000003#41, 0x10000000012#41, 0x10080000001#41, 0x1000000000F#41].map decodeWord =
      List.replicate 4 (.reject .illegalCmd) := by decide
/-- V-DEC8, V-DEC10, V-DEC17. -/
theorem test_decode_badAccess :
    [0x00000000000#41, 0x10400000000#41, 0x120DEADBEEF#41].map decodeWord = List.replicate 3 (.reject .badAccess) := by decide
/-- V-DEC11, 12, 15, 16, 22 to 27. -/
theorem test_decode_badAddr :
    [0x00800000000#41, 0x01C00000000#41, 0x03400000000#41, 0x03C00000000#41, 0x14100000005#41, 0x04200000000#41,
      0x00300000000#41, 0x10500000007#41, 0x18000000000#41, 0x0FC00000000#41].map decodeWord =
      List.replicate 10 (.reject .badAddr) := by decide
/-- V-DEC28: the data field of a read is ignored. -/
theorem test_decode_read_ignores_data : decodeWord 0x00412345678#41 = .op .rdstatus := by decide
/-- V-DEC18 and P1: the encoder's words. -/
theorem test_encode_words :
    encode (.wrmb 0#4 0x61626380#32) = some 0x14061626380#41 ∧ encode (.rdh 4#3) = some 0x03000000000#41 ∧
      encode .start = some 0x10000000002#41 ∧ encode .roundCh = none := by decide
/-- The table's rows, by decodeTableWord; a number of more than 41 bits has no transaction word. -/
theorem test_decodeTableWord :
    decodeTableWord 48 0x14061626380 = some (.wrmb 0#4 0x61626380#32) ∧ decodeTableWord 48 0x02400000000 = some (.rdh 1#3) ∧
      decodeTableWord 48 0x210000000000 = none := by decide
/-- A transaction placed after Reset is the first step. -/
theorem test_withFetchWord_runs : (outState (step (State.reset.withFetchWord 48 0x10000000002))).busy = true := by decide

/-! ### Operators (95_test_vectors.md 2.1) -/

theorem test_rotl : rotl1 0x80000000#32 = 0x00000001#32 ∧ rotl5 0x67452301#32 = 0xE8A4602C#32 ∧
    rotl30 0xEFCDAB89#32 = 0x7BF36AE2#32 := by decide
theorem test_add5 : add5 0xE8A4602C#32 0x98BADCFE#32 0xC3D2E1F0#32 0x5A827999#32 0x61626380#32 = 0x0116FC33#32 ∧
    add5 0xFFFFFFFF#32 0xFFFFFFFF#32 0xFFFFFFFF#32 0xFFFFFFFF#32 0xFFFFFFFF#32 = 0xFFFFFFFB#32 := by decide
/-- V29, V35, V41. -/
theorem test_roundFn : roundFn .ch 0xF0F0F0F0#32 0xFF00FF00#32 0xFFFF0000#32 = 0xFF0FF000#32 ∧
    roundFn .par1 0xF0F0F0F0#32 0xFF00FF00#32 0xFFFF0000#32 = 0xF00F0FF0#32 ∧
    roundFn .maj 0xF0F0F0F0#32 0xFF00FF00#32 0xFFFF0000#32 = 0xFFF0F000#32 := by decide
/-- The stage boundaries of R152 (e). -/
theorem test_stage_boundaries :
    [0, 19, 20, 39, 40, 59, 60, 79].map stageOf = [.ch, .ch, .par1, .par1, .maj, .maj, .par2, .par2] := by decide

/-! ### Instructions -/

theorem test_nop_keeps_busy : (outState (exec .nop (busyAt 5#7))).t = 5#7 := by decide
/-- The example of R121. -/
theorem test_init : (outState (exec .init { State.reset with h := #v[1#32, 2#32, 3#32, 4#32, 5#32], done := true })) =
    State.reset := by decide
/-- V-ERR6: INIT while busy. -/
theorem test_init_busy : statusWord (outState (exec .init (busyAt 0#7))) = 0x15#32 := by decide
/-- The example of R122. -/
theorem test_start : varsOf (outState (exec .start loaded)) =
      { a := 0x67452301#32, b := 0xEFCDAB89#32, c := 0x98BADCFE#32, d := 0x10325476#32, e := 0xC3D2E1F0#32 } ∧
    (outState (exec .start loaded)).ws = abcBlock := by decide
theorem test_start_busy : statusWord (outState (exec .start (busyAt 37#7))) = 0x15#32 ∧
    (outState (exec .start (busyAt 37#7))).t = 37#7 := by decide
/-- The examples of R123 and R124. -/
theorem test_wrmb : (outState (exec (.wrmb 0#4 0x61626380#32) State.reset)).mb[0] = 0x61626380#32 := by decide
theorem test_wrmb_last : (outState (exec (.wrmb 15#4 7#32) loaded)).mb[15] = 7#32 ∧
    (outState (exec (.wrmb 15#4 7#32) loaded)).mb[0] = 0x61626380#32 := by decide
theorem test_rdmb : (outState (exec (.rdmb 15#4) loaded)).replies = [0x18#32] := by decide
theorem test_rdh : (outState (exec (.rdh 4#3) (busyAt 3#7))).replies = [0xC3D2E1F0#32] := by decide
/-- V-ERR1: the read of a hash index that does not exist. -/
theorem test_rdh_absent : statusWord (outState (exec (.rdh 5#3) State.reset)) = 0x34#32 ∧
    (outState (exec (.rdh 5#3) State.reset)).replies = [0#32] := by decide
/-- The examples of R128. -/
theorem test_rdstatus : (outState (exec .rdstatus (busyAt 0#7))).replies = [0x01#32] := by decide
/-- The worked example of R153. -/
theorem test_roundCh : varsOf (outState (exec .roundCh (busyAt 0#7))) =
    { a := 0x0116FC33#32, b := 0x67452301#32, c := 0x7BF36AE2#32, d := 0x98BADCFE#32, e := 0x10325476#32 } := by decide
/-- V-RND2.6, and V-SCH2's first shift. -/
theorem test_roundCh_last : (outState (exec .roundCh (vecAt 19#7))).a = 0x5A8279CA#32 ∧
    (outState (exec .roundCh (busyAt 0#7))).ws[15] = 0xC2C4C700#32 := by decide
/-- V-RND2.7, V-RND2.8. -/
theorem test_roundPar1 : (outState (exec .roundPar1 (vecAt 20#7))).a = 0x6ED9EBD1#32 ∧
    (outState (exec .roundPar1 (vecAt 39#7))).t = 40#7 := by decide
/-- V-RND2.9, V-RND2.10. -/
theorem test_roundMaj : (outState (exec .roundMaj (vecAt 40#7))).a = 0x8F1BBD09#32 ∧
    (outState (exec .roundMaj (vecAt 59#7))).c = 0x80000000#32 := by decide
/-- V-RND2.11, V-RND2.12. -/
theorem test_roundPar2 : (outState (exec .roundPar2 (vecAt 60#7))).a = 0xCA62C206#32 ∧
    (outState (exec .roundPar2 (vecAt 79#7))).t = 80#7 := by decide
/-- V-FIN1. -/
theorem test_final : (outState (exec .final { busyAt 80#7 with
      a := 0x42541B35#32, b := 0x5738D5E1#32, c := 0x21834873#32, d := 0x681E6DF6#32, e := 0xD8FDF6AD#32 })).h =
    #v[0xA9993E36#32, 0x4706816A#32, 0xBA3E2571#32, 0x7850C26C#32, 0x9CD0D89D#32] := by decide
/-- V-FIN2: every lane wraps; flags. -/
theorem test_final_flags : statusWord (outState (exec .final (busyAt 80#7))) = 0x02#32 ∧
    (outState (exec .final (busyAt 80#7))).t = 0#7 := by decide

/-! ### Errors (95_test_vectors.md V-ERR) -/

theorem test_err_badAccess : statusWord (outState (transact (regWrite 0x20#8 0#32) State.reset)) = 0x44#32 := by decide
theorem test_err_illegal_wins : statusWord (outState (transact (regWrite 0x00#8 7#32) (busyAt 1#7))) = 0x25#32 := by decide
theorem test_err_first_kept :
    statusWord (outState (transact (regRead 0x08#8) (outState (transact (regRead 0x00#8) State.reset)))) = 0x44#32 := by decide
theorem test_err_width : statusWord (outState (transact { kind := .read, off := 4, width := 8, data := 0#32 } State.reset)) =
    0x34#32 := by decide
theorem test_reset_clears : outState (hostMove .reset { busyAt 9#7 with err := true, errcode := 2#4 }) = State.reset := by decide

/-! ### The host's side (95_test_vectors.md 1.1, 2.2, 2.3) -/

/-- V-PAD55 and V-PAD56: the last one-block message, the first two-block message. -/
theorem test_pad_boundary :
    (messageBlocks (List.replicate 55 0x61#8)).map List.length = some 1 ∧
      (messageBlocks (List.replicate 56 0x61#8)).map List.length = some 2 := by decide +kernel
theorem test_abc_block : messageBlocks [0x61#8, 0x62#8, 0x63#8] = some [abcBlock] := by decide +kernel
/-- V-SCH1. -/
theorem test_schedule : [16, 17, 18, 19, 79, 95].map (schedule abcBlock) =
    [0xC2C4C700#32, 0#32, 0x30#32, 0x85898E01#32, 0x822E0879#32, 0x1DA6B91D#32] := by decide +kernel
/-- S2. -/
theorem test_digest_abc : digest [0x61#8, 0x62#8, 0x63#8] = some [0xa9#8, 0x99#8, 0x3e#8, 0x36#8, 0x47#8, 0x06#8, 0x81#8, 0x6a#8,
    0xba#8, 0x3e#8, 0x25#8, 0x71#8, 0x78#8, 0x50#8, 0xc2#8, 0x6c#8, 0x9c#8, 0xd0#8, 0xd8#8, 0x9d#8] := by decide +kernel
/-- S1. -/
theorem test_digest_empty : digest [] = some [0xda#8, 0x39#8, 0xa3#8, 0xee#8, 0x5e#8, 0x6b#8, 0x4b#8, 0x0d#8, 0x32#8, 0x55#8,
    0xbf#8, 0xef#8, 0x95#8, 0x60#8, 0x18#8, 0x90#8, 0xaf#8, 0xd8#8, 0x07#8, 0x09#8] := by decide +kernel

/-- S3: two blocks, chained. -/
theorem test_digest_s3 : digest ([0x61, 0x62, 0x63, 0x64, 0x62, 0x63, 0x64, 0x65, 0x63, 0x64, 0x65, 0x66, 0x64, 0x65, 0x66, 0x67,
    0x65, 0x66, 0x67, 0x68, 0x66, 0x67, 0x68, 0x69, 0x67, 0x68, 0x69, 0x6a, 0x68, 0x69, 0x6a, 0x6b, 0x69, 0x6a, 0x6b, 0x6c, 0x6a,
    0x6b, 0x6c, 0x6d, 0x6b, 0x6c, 0x6d, 0x6e, 0x6c, 0x6d, 0x6e, 0x6f, 0x6d, 0x6e, 0x6f, 0x70, 0x6e, 0x6f, 0x70, 0x71]) =
    some [0x84#8, 0x98#8, 0x3e#8, 0x44#8, 0x1c#8, 0x3b#8, 0xd2#8, 0x6e#8, 0xba#8, 0xae#8, 0x4a#8, 0xa1#8, 0xf9#8, 0x51#8,
      0x29#8, 0xe5#8, 0xe5#8, 0x46#8, 0x70#8, 0xf1#8] := by decide +kernel
/-- P1: the driver program of "abc" has the transactions of the listing (24 moves, `wait` one of them). -/
theorem test_driver_abc : (driver [0x61#8, 0x62#8, 0x63#8]).map (fun p => (p.length, p.take 2, p.drop 17)) =
    some (24, [.access (regWrite 0x00#8 1#32), .access (regWrite 0x40#8 0x61626380#32)],
      [.access (regWrite 0x00#8 2#32), .wait, .access (regRead 0x20#8), .access (regRead 0x24#8), .access (regRead 0x28#8),
        .access (regRead 0x2C#8), .access (regRead 0x30#8)]) := by decide +kernel

/-! ### Witnesses: for every statement with hypotheses, values that meet them together -/

/-- A host that has one transaction to make, while the engine is idle. -/
def hostNext (a : Access) : State := withMove (.access a) loaded

/-- A compression at round `t` with a host that has a move, the host's turn first. -/
def contestedAt (t : BitVec 7) (m : HostMove) (g : Agent) : State := { withMove m (busyAt t) with turns := [g] }

theorem witness_EncodedInstructionDecodesToItself :
    (∀ i ∈ [Instr.nop, .init, .start, .wrmb 15#4 0xFFFFFFFF#32, .rdmb 0#4, .rdh 0#3, .rdh 4#3, .rdstatus],
      i.wellFormed = true ∧ i.isTransaction = true) := by decide
theorem witness_DecodedWordEncodesToItsCanonicalForm :
    decodeWord 0x00412345678#41 = .op .rdstatus ∧ decodeWord 0x17C00000018#41 = .op (.wrmb 15#4 24#32) := by decide
theorem witness_OpcodeMapSelectsByMatchAndMask :
    decodeWordWhile 0x10000000001#41 false = .op .init ∧ decodeWordWhile 0x10000000002#41 false = .op .start ∧
    decodeWordWhile 0x10000000000#41 true = .op .nop ∧ decodeWordWhile 0x07C00000000#41 true = .op (.rdmb 15#4) ∧
    decodeWordWhile 0x03000000000#41 true = .op (.rdh 4#3) ∧
    [0#7, 19#7, 20#7, 39#7, 40#7, 59#7, 60#7, 79#7, 80#7, 81#7].map (fun t => selectMicroOp (busyAt t)) =
      [some .roundCh, some .roundCh, some .roundPar1, some .roundPar1, some .roundMaj, some .roundMaj, some .roundPar2,
        some .roundPar2, some .final, none] := by decide
theorem witness_DecoderIsItsFirstMatchingLine :
    ([0x08#8, 0x1C#8, 0x34#8, 0x3C#8, 0x80#8, 0xFC#8, 0x03#8, 0x05#8, 0x41#8, 0xFF#8].all fun o =>
      decodeWhile .read o 0#32 true == .reject .badAddr && decodeWhile .write o 0#32 false == .reject .badAddr) = true ∧
    decodeWhile .write 0x04#8 0#32 false = .reject .badAccess ∧ decodeWhile .read 0x00#8 0#32 false = .reject .badAccess ∧
    decodeWhile .write 0x20#8 0#32 false = .reject .badAccess ∧ decodeWhile .write 0x30#8 0#32 false = .reject .badAccess ∧
    decodeWhile .read 0x20#8 0#32 false = .op (.rdh 0#3) ∧ decodeWhile .read 0x30#8 0#32 false = .op (.rdh 4#3) ∧
    decodeWhile .read 0x04#8 0#32 true = .op .rdstatus ∧
    decodeWhile .read 0x40#8 0#32 true = .op (.rdmb 0#4) ∧ decodeWhile .write 0x7C#8 9#32 true = .op (.wrmb 15#4 9#32) ∧
    decodeWhile .write 0x00#8 3#32 true = .reject .illegalCmd ∧ decodeWhile .write 0x00#8 0#32 true = .op .nop ∧
    decodeWhile .write 0x00#8 1#32 true = .reject .cmdWhileBusy ∧ decodeWhile .write 0x00#8 2#32 true = .reject .cmdWhileBusy ∧
    decodeWhile .write 0x00#8 1#32 false = .op .init ∧ decodeWhile .write 0x00#8 2#32 false = .op .start := by decide
theorem witness_TransactionIsDecodedAgainstBusy :
    (regWrite 0x00#8 2#32).word? = some 0x10000000002#41 ∧
    decodeWordWhile 0x10000000002#41 (loaded).busy = .op .start ∧
    decodeWordWhile 0x10000000002#41 (busyAt 3#7).busy = .reject .cmdWhileBusy := by decide
theorem witness_TransactionRaisesTheFirstErrorThatApplies :
    BadAddress (regRead 0x1C#8) ∧
    (¬ BadAddress (regWrite 0x30#8 0#32) ∧ BadDirection (regWrite 0x30#8 0#32)) ∧
    (¬ BadAddress (regWrite 0x00#8 3#32) ∧ ¬ BadDirection (regWrite 0x00#8 3#32)) ∧
    (¬ BadAddress (regWrite 0x00#8 2#32) ∧ (busyAt 80#7).busy = true) ∧
    (¬ BadAddress (regRead 0x7C#8) ∧ ¬ BadDirection (regRead 0x7C#8)) ∧
    selectMicroOp (busyAt 80#7) = some .final := by
  refine ⟨?_, ⟨?_, .inl ⟨rfl, .inr ⟨4, by decide, by decide⟩⟩⟩, ⟨?_, ?_⟩, ⟨?_, rfl⟩, ⟨?_, ?_⟩, by decide⟩
  case refine_4 =>
    rintro (⟨-, h | ⟨i, -, h⟩⟩ | ⟨h, -⟩)
    · exact absurd h (by decide)
    · simp [regWrite] at h
      omega
    · exact absurd h (by decide)
  case refine_7 => rintro (⟨h, -⟩ | ⟨-, h⟩) <;> exact absurd h (by decide)
  all_goals (unfold BadAddress ReservedOffset; decide)
theorem witness_RaisedErrorIsRecordedKeptAndHarmless :
    ∃ s u : State, step s = .next u ∧ s.err = true ∧ s.errcode = 4#4 ∧ ¬ resetsNext s := by
  refine ⟨{ hostNext (regRead 0x04#8) with err := true, errcode := 4#4 }, _, rfl, rfl, rfl, ?_⟩
  rintro ⟨-, h⟩
  exact absurd h (by decide)
theorem witness_BadAddrIsRaisedExactlyOnAbsentOffsets :
    BadAddress { kind := .read, off := 0x100, width := 32, data := 0#32 } ∧
    BadAddress { kind := .write, off := 0x40, width := 16, data := 0#32 } := by
  constructor <;> (unfold BadAddress ReservedOffset; decide)
theorem witness_BadAccessIsRaisedExactlyOnWrongDirection : (0 : Nat) ≤ 4 ∧ (4 : Nat) ≤ 4 ∧
    BadDirection (regRead 0x00#8) ∧ BadDirection (regWrite 0x04#8 1#32) := by
  exact ⟨by decide, by decide, .inr ⟨rfl, rfl⟩, .inl ⟨rfl, .inl rfl⟩⟩
theorem witness_IllegalCommandWordsAreRejected :
    (3#32 ≠ 0#32 ∧ 3#32 ≠ 1#32 ∧ 3#32 ≠ 2#32) ∧ decodeAccess (regWrite 0x00#8 1#32) = .op .init := by decide
theorem witness_StepRunsTheDecodedTransaction :
    (nextAgent (hostNext (regWrite 0x00#8 2#32)) = some .host ∧ decodeAccess (regWrite 0x00#8 2#32) = .op .start) ∧
    (nextAgent (contestedAt 7#7 (.access (regRead 0x08#8)) .host) = some .host ∧
      decodeAccess (regRead 0x08#8) = .reject .badAddr) := by decide
theorem witness_StepRunsTheSelectedMicroOperation :
    nextAgent (busyAt 79#7) = some .engine ∧ nextAgent (contestedAt 80#7 .wait .engine) = some .engine := by decide
theorem witness_FetchedWordIsTheNextStep : decodeTableWord 41 0x14061626380 = some (.wrmb 0#4 0x61626380#32) := by decide
theorem witness_AgentsInterleaveAsRecorded :
    (State.reset.pending = [] ∧ State.reset.busy = false) ∧
    ((hostNext (regRead 4#8)).pending ≠ [] ∧ (hostNext (regRead 4#8)).busy = false) ∧
    ((busyAt 80#7).pending = [] ∧ (busyAt 80#7).busy = true ∧ (busyAt 80#7).t.toNat ≤ 80) ∧
    ((contestedAt 0#7 .wait .host).pending ≠ [] ∧ (contestedAt 0#7 .wait .host).busy = true ∧
      (contestedAt 0#7 .wait .host).turns = [.host]) ∧
    ((withMove .wait (busyAt 0#7)).pending ≠ [] ∧ (withMove .wait (busyAt 0#7)).turns = []) := by decide
theorem witness_WaitPollsUntilIdle :
    (nextAgent (contestedAt 5#7 .wait .host) = some .host ∧ (contestedAt 5#7 .wait .host).pending = [.wait]) ∧
    (nextAgent (withMove .wait loaded) = some .host ∧ (withMove .wait loaded).pending = [.wait]) := by decide
/-- The hypothesis `Inv` of EveryStepKeepsTheInvariants, HostCannotDisturbACompression and StatusValuesAreTheListedOnes. -/
theorem witness_inv_reset : Inv State.reset := by constructor <;> decide
theorem witness_inv_busy : Inv (busyAt 80#7) := by constructor <;> decide
theorem witness_EveryStepKeepsTheInvariants : Inv (busyAt 80#7) ∧ ∃ u, step (busyAt 80#7) = .next u :=
  ⟨witness_inv_busy, _, rfl⟩
theorem witness_StatusValuesAreTheListedOnes : Inv { busyAt 1#7 with err := true, errcode := 4#4 } := by
  constructor <;> decide
/-- The hypothesis of the four statements on which registers a step writes: each of their cases has a step. -/
theorem witness_HashStateIsWrittenInThreeWays :
    (∃ u, step (hostNext (regWrite 0x00#8 1#32)) = .next u) ∧ (∃ u, step (busyAt 80#7) = .next u) ∧
    (∃ u, step (withMove .reset loaded) = .next u) ∧ decodeAccess (regWrite 0x00#8 1#32) = .op .init ∧
    (withMove .reset loaded).pending.head? = some .reset := ⟨⟨_, rfl⟩, ⟨_, rfl⟩, ⟨_, rfl⟩, by decide, rfl⟩
theorem witness_BlockBufferIsWrittenByTheHostAlone :
    (∃ u, step (hostNext (regWrite 0x7C#8 1#32)) = .next u) ∧
    decodeAccess (regWrite 0x7C#8 1#32) = .op (.wrmb 15#4 1#32) := ⟨⟨_, rfl⟩, by decide⟩
theorem witness_ControlStateMovesOnlyBySequencing :
    (∃ u, step (hostNext (regWrite 0x00#8 2#32)) = .next u ∧ u.busy = true) ∧
    (∃ u, step (busyAt 79#7) = .next u ∧ u.t = 80#7) ∧ (∃ u, step (busyAt 80#7) = .next u ∧ u.done = true) :=
  ⟨⟨_, rfl, rfl⟩, ⟨_, rfl, by decide⟩, ⟨_, rfl, rfl⟩⟩
theorem witness_WorkingRegistersAreWrittenByStartRoundReset :
    ∃ u, step (hostNext (regWrite 0x00#8 2#32)) = .next u ∧ u.ws = abcBlock := ⟨_, rfl, rfl⟩
theorem witness_HiddenRegistersAreInvisible :
    SameVisible loaded { loaded with a := 7#32, ws := abcBlock } ∧ loaded.busy = false ∧
    ∃ s', Sys2Proof.core.run 1 loaded = .next s' := ⟨⟨rfl, rfl, rfl, rfl, rfl, rfl, rfl, rfl, rfl, rfl, rfl, rfl⟩, rfl, _, rfl⟩
theorem witness_ResetWritesEveryRegister :
    nextAgent (contestedAt 80#7 .reset .host) = some .host ∧ (contestedAt 80#7 .reset .host).pending = [.reset] := by decide
theorem witness_CommandsHaveExactlyTheirEffect : loaded.busy = false ∧ (busyAt 0#7).busy = true := ⟨rfl, rfl⟩
theorem witness_RegisterReadsReturnAndChangeNothing : 5 ≤ (5#3).toNat ∧ 5 ≤ (7#3).toNat := by decide
theorem witness_ReadTransactionsHaveNoSideEffect :
    (regRead 0x30#8).kind = .read ∧ decodeAccess (regRead 0x30#8) = .op (.rdh 4#3) ∧
    decodeAccess (regRead 0x34#8) = .reject .badAddr := by decide
theorem witness_RotateLeftIsThePermutationOfBits : 0 < 1 ∧ 31 < 32 ∧ (2 + 30) % 32 = 0 := by decide
theorem witness_AdderTreeShapeDoesNotMatter :
    (AddTree.node (.node (.leaf 1#32) (.leaf 2#32)) (.node (.leaf 3#32) (.node (.leaf 4#32) (.leaf 5#32)))).operands.Perm
      [1#32, 2#32, 3#32, 4#32, 5#32] := by decide
theorem witness_RoundFunctionsAndConstantsByIndex : 19 < 20 ∧ 20 ≤ 20 ∧ 39 < 40 ∧ 40 ≤ 40 ∧ 59 < 60 ∧ 60 ≤ 60 ∧ 79 < 80 := by
  decide
theorem witness_ScheduleFollowsItsRecurrence : (16 : Nat) ≤ 16 ∧ (16 : Nat) ≤ 95 := by decide
theorem witness_RoundRowsComputeOneRound :
    (busyAt 19#7).busy = true ∧ (busyAt 19#7).t.toNat ≤ 19 ∧ 20 ≤ (busyAt 20#7).t.toNat ∧ (busyAt 39#7).t.toNat ≤ 39 ∧
    40 ≤ (busyAt 40#7).t.toNat ∧ (busyAt 59#7).t.toNat ≤ 59 ∧ 60 ≤ (busyAt 60#7).t.toNat ∧ (busyAt 79#7).t.toNat ≤ 79 := by
  decide
theorem witness_SimultaneousRoundEqualsSequentialRound :
    selectMicroOp (busyAt 59#7) = some .roundMaj ∧ (busyAt 59#7).t.toNat < 80 := by decide
theorem witness_FinalUpdatesTheHashState : (busyAt 80#7).busy = true ∧ (busyAt 80#7).t.toNat = 80 := by decide
theorem witness_SequencerRowsStopWhereNotSelected : Instr.roundCh.isTransaction = false ∧
    exec .roundCh (busyAt 20#7) = .fault .microOpNotSelected := ⟨rfl, rfl⟩
theorem witness_window_after_start : WindowHolds abcBlock (loadBlock loaded) := by unfold WindowHolds; decide +kernel
theorem witness_EveryStepKeepsTheScheduleWindow :
    (loaded.busy = false ∧ ∃ u, exec .start loaded = .next u) ∧
    ∃ s u, s.busy = true ∧ WindowHolds abcBlock s ∧ step s = .next u ∧ u.busy = true :=
  ⟨⟨rfl, _, rfl⟩, _, _, rfl, witness_window_after_start, rfl, rfl⟩
theorem witness_HostCannotDisturbACompression :
    Inv (contestedAt 80#7 (.access (regWrite 0x40#8 1#32)) .host) ∧
    nextAgent (contestedAt 80#7 (.access (regWrite 0x40#8 1#32)) .host) = some .host ∧
    ¬ resetsNext (contestedAt 80#7 (.access (regWrite 0x40#8 1#32)) .host) := by
  refine ⟨by constructor <;> decide, by decide, ?_⟩
  rintro ⟨-, h⟩
  exact absurd h (by decide)
theorem witness_EveryStepCarriesTheCompressionForward :
    loaded.busy = false ∧ Compressing iv abcBlock (loadBlock loaded) ∧ ¬ resetsNext (loadBlock loaded) ∧
    ∃ u, step (loadBlock loaded) = .next u := by
  refine ⟨rfl, ⟨rfl, rfl, by decide, rfl, witness_window_after_start, rfl⟩, ?_, _, rfl⟩
  rintro ⟨-, h⟩
  exact absurd h (by decide)
theorem witness_CompressionTakesExactly81EngineSteps :
    (loaded.busy = false ∧ HostMove.reset ∉ loaded.pending ∧ loaded.pending = [] ∧ ∃ u, exec .start loaded = .next u) ∧
    (∃ v, Sys2Proof.core.run 0 (loadBlock loaded) = .next v ∧ engineStepsIn 0 (loadBlock loaded) ≤ 80) :=
  ⟨⟨rfl, by simp [loaded, State.reset], rfl, _, rfl⟩, _, rfl, by decide⟩
/-- The second clause: the state before the 81st engine step. -/
theorem witness_CompressionTakesExactly81EngineSteps_last :
    (match Sys2Proof.core.run 80 (loadBlock loaded) with
      | .next v => decide (nextAgent v = some .engine)
      | _ => false) = true ∧ engineStepsIn 80 (loadBlock loaded) = 80 := by decide +kernel
theorem witness_PaddedMessageHasItsShape : (pad (List.replicate 55 0x61#8)).map List.length = some 64 ∧
    (pad (List.replicate 56 0x61#8)).map List.length = some 128 := by decide +kernel
theorem witness_PaddingSpillsIntoASecondBlock : (List.replicate 55 0x61#8).length % 64 ≤ 55 ∧
    56 ≤ (List.replicate 56 0x61#8).length % 64 := by decide
theorem witness_ParsedWordsAreBigEndian : 0 < 1 ∧ (List.replicate 64 0x61#8).length = 64 * 1 := by decide
theorem witness_DigestBytesAreBigEndian : (0 : Nat) < 4 ∧ (3 : Nat) < 4 := by decide
theorem witness_DigestHasTwentyBytes : ([] : List Byte).length < 2 ^ 61 := by decide
theorem witness_SharedPrefixGivesTheSameHashState : ∃ bx bt, (List.replicate 64 0x61#8).length = 64 * 1 ∧
    messageBlocks (List.replicate 64 0x61#8 ++ [1#8]) = some bx ∧ messageBlocks (List.replicate 64 0x61#8 ++ []) = some bt := by
  obtain ⟨bx, hx⟩ := Option.isSome_iff_exists.1 (by decide +kernel : (messageBlocks (List.replicate 64 0x61#8 ++ [1#8])).isSome)
  obtain ⟨bt, ht⟩ := Option.isSome_iff_exists.1 (by decide +kernel : (messageBlocks (List.replicate 64 0x61#8 ++ [])).isSome)
  exact ⟨bx, bt, by decide, hx, ht⟩
/-- The driver's start state for "abc", with an interleaving that gives the engine its 81 turns. -/
def driverStart : State := { State.reset with pending := driverFor [abcBlock], turns := List.replicate 81 .engine }
theorem witness_DriverTerminatesUnderFairness :
    messageBlocks [0x61#8, 0x62#8, 0x63#8] = some [abcBlock] ∧ driverStart.busy = false ∧
    driverStart.pending = driverFor [abcBlock] ∧ 81 * [abcBlock].length ≤ engineTurns driverStart.turns :=
  ⟨test_abc_block, rfl, rfl, by decide +kernel⟩
/-- The run of the driver on "abc" ends (106 steps), so its end state meets the hypotheses of DriverComputesTheDigest. -/
theorem witness_DriverComputesTheDigest :
    (match Sys2Proof.core.run 106 driverStart with
      | .next u => decide (State.pending u = [] ∧ State.busy u = false)
      | _ => false) = true := by decide +kernel
/-- A compression and a host that waits, with nothing recorded: the free choice decides. -/
theorem witness_EngineEventuallySteps :
    (withMove .wait (busyAt 80#7)).busy = true ∧ (withMove .wait (busyAt 80#7)).t.toNat ≤ 80 ∧
    (withMove .wait (busyAt 80#7)).turns = [] := by decide
theorem witness_EveryHostProgramEnds :
    (withMove .reset (withMove .wait (busyAt 80#7))).busy = true ∧
    (withMove .reset (withMove .wait (busyAt 80#7))).t.toNat ≤ 80 := by decide
/-- R13: whatever the free value is, once its moves are made the waiting engine steps. -/
theorem test_waiting_engine_steps :
    nextAgent { withMove .wait (busyAt 80#7) with waited := Config.freeWait 0 } = some .engine := by
  rw [nextAgent_of_free rfl rfl]
  exact congrArg some (if_neg (Nat.lt_irrefl _))

end Sys2Proof.Machine.Tests
end

/-! PROOFS. The statements of 00_scope.md: which agent moves next, what its step runs, and that a BUSY engine eventually steps. -/

namespace Sys2Proof.Machine

/-! ### Who can move, by `pending`, BUSY and T -/

@[simp] theorem hostReady_eq_true {s : State} : hostReady s = true ↔ s.pending ≠ [] := by simp [hostReady]

@[simp] theorem hostReady_eq_false {s : State} : hostReady s = false ↔ s.pending = [] := by simp [hostReady]

/-- An engine with BUSY = 0 has no step (R192). -/
theorem engineReady_of_idle {s : State} (hb : s.busy = false) : engineReady s = false := by simp [engineReady_eq, hb]

/-- An engine with BUSY = 1 and T in range has one (R31 (i), R157). -/
theorem engineReady_of_busy {s : State} (hb : s.busy = true) (ht : s.t.toNat ≤ 80) : engineReady s = true := by
  simp [engineReady_eq, hb, ht]

theorem not_contested_of_idle {s : State} (hb : s.busy = false) : contested s = false := by
  simp [contested, engineReady_of_idle hb]

theorem not_contested_of_no_pending {s : State} (hp : s.pending = []) : contested s = false := by
  simp [contested, hostReady_eq_false.2 hp]

theorem contested_of_busy {s : State} (hp : s.pending ≠ []) (hb : s.busy = true) (ht : s.t.toNat ≤ 80) :
    contested s = true := by
  simp [contested, hostReady_eq_true.2 hp, engineReady_of_busy hb ht]

/-! ### What the choice uses up -/

theorem engineWaitsOn_iff {s : State} :
    engineWaitsOn s = true ↔ s.waited < Config.freeWait s.tick ∧ s.pending.head? ≠ some .reset := by
  rcases freeTurn_cases s with ⟨hg, hw⟩ | ⟨hg, hw⟩
  · simp [engineWaitsOn, hg, hw]
  · simp [engineWaitsOn, hg, Nat.not_lt.2 hw]

/-- Beyond `turns` a contested choice counts one more move of the host, or begins the count anew (log 18). -/
theorem useTurn_of_free {s : State} (hc : contested s = true) (hts : s.turns = []) :
    useTurn s = if s.waited < Config.freeWait s.tick ∧ s.pending.head? ≠ some .reset
      then { s with waited := s.waited + 1 } else { s with tick := s.tick + 1, waited := 0 } := by
  split
  case isTrue h => exact useTurn_of_wait hc hts (engineWaitsOn_iff.2 h)
  case isFalse h => exact useTurn_of_stretch_end hc hts (Bool.eq_false_iff.2 (mt engineWaitsOn_iff.1 h))

/-- Settles O15, one clause for each pair of answers to "can the host move" and "can the engine move". -/
theorem agentsInterleaveAsRecorded : Obligations.AgentsInterleaveAsRecorded := by
  intro s
  refine ⟨fun hp hb => ?_, fun hp hb => ?_, fun hp hb ht => ?_, fun hp hb ht => ?_⟩
  · have hn := nextAgent_of_idle (hostReady_eq_false.2 hp) (engineReady_of_idle hb)
    simp [step, hn]
  · exact ⟨nextAgent_of_host_only (hostReady_eq_true.2 hp) (engineReady_of_idle hb),
      useTurn_of_not_contested (not_contested_of_idle hb)⟩
  · exact ⟨nextAgent_of_engine_only (hostReady_eq_false.2 hp) (engineReady_of_busy hb ht),
      useTurn_of_not_contested (not_contested_of_no_pending hp)⟩
  · have hc := contested_of_busy hp hb ht
    exact ⟨fun g rest hts => ⟨nextAgent_of_turn (hostReady_eq_true.2 hp) (engineReady_of_busy hb ht) hts,
        useTurn_of_turn hc hts⟩,
      fun hts => ⟨nextAgent_of_free hc hts, useTurn_of_free hc hts⟩⟩

/-! ### The engine's turn -/

/-- Settles O13: the engine's turn comes only where (BUSY, T) selects a row, and that row is what the step runs. -/
theorem stepRunsTheSelectedMicroOperation : Obligations.StepRunsTheSelectedMicroOperation := by
  intro s hn
  obtain ⟨i, hi⟩ : ∃ i, selectMicroOp s = some i := Option.isSome_iff_exists.1 (nextAgent_engine hn)
  exact ⟨i, hi, by simp [step, hn, engineTurn, hi]⟩

/-! ### Weak fairness: the engine eventually steps -/

theorem SameEngine.refl (s : State) : SameEngine s s := by simp [SameEngine]

theorem SameEngine.trans {s u v : State} (hsu : SameEngine s u) (huv : SameEngine u v) : SameEngine s v := by
  unfold SameEngine at *
  simp_all only [and_self]

theorem SameEngine.t_eq {s u : State} (h : SameEngine s u) : s.t = u.t := by
  obtain ⟨-, -, -, -, -, -, -, ht, -, -⟩ := h
  exact ht

theorem SameEngine.busy_eq {s u : State} (h : SameEngine s u) : s.busy = u.busy := by
  obtain ⟨-, -, -, -, -, -, -, -, hb, -⟩ := h
  exact hb

/-- After a step that answers a next state, `k + 1` steps are `k` steps from there. -/
theorem run_succ_of_step (M : Host.Core) {s v : M.State} (k : Nat) (h : M.step s = .next v) :
    M.run (k + 1) s = M.run k v := by
  simp only [Host.Core.run, h]

/-- During a compression one of the two agents moves next (R157: nothing blocks). -/
theorem nextAgent_of_busy {s : State} (hb : s.busy = true) (ht : s.t.toNat ≤ 80) :
    nextAgent s = some .engine ∨ nextAgent s = some .host := by
  match hn : nextAgent s with
  | some .engine => exact .inl rfl
  | some .host => exact .inr rfl
  | none =>
    obtain ⟨-, he⟩ := nextAgent_none hn
    simp [engineReady_of_busy hb ht] at he

/-- The moves the interleaving can still give the host before a waiting engine's step: the recorded turns, then what is left
of the free value (log 1, log 18). -/
def hostMovesLeft (s : State) : Nat := s.turns.length + (Config.freeWait s.tick - s.waited)

/-- Every move of the host during a compression, Reset apart, makes `hostMovesLeft` smaller, so the engine's step or a Reset is
next after at most that many. -/
theorem engine_steps_within_hostMovesLeft (s : State) (hb : s.busy = true) (ht : s.t.toNat ≤ 80) :
    ∃ (k : Nat) (u : State), k ≤ hostMovesLeft s ∧ Sys2Proof.core.run k s = .next u ∧ SameEngine s u ∧
      (nextAgent u = some .engine ∨ resetsNext u) := by
  induction hd : hostMovesLeft s using Nat.strong_induction_on generalizing s with
  | _ n ih =>
    by_cases hstop : nextAgent s = some .engine ∨ resetsNext s
    · exact ⟨0, s, Nat.zero_le _, rfl, .refl s, hstop⟩
    · obtain ⟨hne, hnr⟩ := not_or.1 hstop
      have hn := (nextAgent_of_busy hb ht).resolve_left hne
      obtain ⟨v, hv, hsame, hless⟩ := step_host_while_busy hb ht hn hnr
      have hlt : hostMovesLeft v < n := hd ▸ hless
      obtain ⟨k, u, hk, hrun, hvu, hu⟩ := ih _ hlt v (hsame.busy_eq ▸ hb) (hsame.t_eq ▸ ht) rfl
      exact ⟨k + 1, u, by omega, (run_succ_of_step Sys2Proof.core k hv).trans hrun, hsame.trans hvu, hu⟩

/-- Settles O52, by strong induction on the moves the interleaving can still give the host. -/
theorem engineEventuallySteps : Obligations.EngineEventuallySteps :=
  engine_steps_within_hostMovesLeft

end Sys2Proof.Machine

/-! PROOFS. The statements of 10_state.md: the registers each kind of step writes, the invariants of R31, the STATUS view, and
that the hidden registers are invisible to the host. -/

namespace Sys2Proof.Machine

/-! ### The step, inverted: one case per kind of step -/

/-- The state a move of the host acts on: the move is off the program and its turn is used up. -/
def moveTaken (s : State) : State := { useTurn s with pending := s.pending.tail }

/-- The kinds of step from `s`, each with its next state. -/
inductive StepEffect (s : State) : State → Prop
  | idle (hn : nextAgent s = none) : StepEffect s s
  | reset (hr : resetsNext s) : StepEffect s (applyReset (moveTaken s))
  | init (hn : nextAgent s = some .host) (hb : s.busy = false) {a : Access} (hp : s.pending.head? = some (.access a))
      (hd : decodeAccess a = .op .init) : StepEffect s (loadIv (moveTaken s))
  | start (hn : nextAgent s = some .host) (hb : s.busy = false) {a : Access} (hp : s.pending.head? = some (.access a))
      (hd : decodeAccess a = .op .start) : StepEffect s (loadBlock (moveTaken s))
  | wrmb (hn : nextAgent s = some .host) {a : Access} (hp : s.pending.head? = some (.access a)) {idx : BitVec 4} {v : Word}
      (hd : decodeAccess a = .op (.wrmb idx v)) : StepEffect s (writeBlock idx v (moveTaken s))
  | records (hn : nextAgent s = some .host) (hr : ¬ resetsNext s) {u : State} (hu : OnlyRecords (moveTaken s) u) :
      StepEffect s u
  | round (hn : nextAgent s = some .engine) (hb : s.busy = true) (ht : s.t.toNat < 80) :
      StepEffect s (roundUpdate (stageOf s.t.toNat) (useTurn s))
  | final (hn : nextAgent s = some .engine) (hb : s.busy = true) (ht : s.t.toNat = 80) :
      StepEffect s (finalUpdate (useTurn s))

/-- Every step is of one of these kinds. -/
theorem stepEffect_of_step {s u : State} (h : step s = .next u) : StepEffect s u := by
  rcases step_cases s with ⟨hn, hs⟩ | ⟨hn, m, rest, hp, hs⟩ | ⟨hn, hb, ht, hs⟩ | ⟨hn, hb, ht, hs⟩
  · cases hs.symm.trans h
    exact .idle hn
  · have htaken : ({ useTurn s with pending := rest } : State) = moveTaken s := by simp [moveTaken, hp]
    have hbusy : (moveTaken s).busy = s.busy := by simp [moveTaken]
    have hhead : s.pending.head? = some m := by simp [hp]
    obtain ⟨v, hv, hcases⟩ := hostMove_cases m (moveTaken s)
    rw [htaken, hv] at hs
    cases hs.symm.trans h
    rcases hcases with ⟨rfl, rfl⟩ | ⟨a, rfl, hd, hb, rfl⟩ | ⟨a, rfl, hd, hb, rfl⟩ | ⟨a, idx, v, rfl, hd, rfl⟩ | ⟨hm, hrec⟩
    · exact .reset ⟨hn, hhead⟩
    · exact .init hn (hbusy ▸ hb) hhead hd
    · exact .start hn (hbusy ▸ hb) hhead hd
    · exact .wrmb hn hhead hd
    · exact .records hn (fun hr => hm (Option.some.inj (hhead.symm.trans hr.2))) hrec
  · cases hs.symm.trans h
    exact .round hn hb ht
  · cases hs.symm.trans h
    exact .final hn hb ht

/-- A rejected or reading move changes no register but the error record. -/
theorem OnlyRecords.frame {s u : State} (h : OnlyRecords s u) : SameEngine s u ∧ u.mb = s.mb := by
  obtain ⟨p, er, k, r, rfl, -⟩ := h
  simp [SameEngine]

theorem SameEngine.moveTaken (s : State) : SameEngine s (moveTaken s) := by simp [SameEngine, Machine.moveTaken]

/-- A step that only records leaves every register but the error record. -/
theorem frame_of_records {s u : State} (h : OnlyRecords (moveTaken s) u) : SameEngine s u ∧ u.mb = s.mb := by
  obtain ⟨hsame, hmb⟩ := h.frame
  exact ⟨(SameEngine.moveTaken s).trans hsame, by simp [hmb, moveTaken]⟩

/-- A round index below 80 has a successor in the 7 bits of T (R23, R150). -/
theorem toNat_succ_of_lt {t : BitVec 7} (h : t.toNat < 80) : (t + 1#7).toNat = t.toNat + 1 := by
  have hone : (1#7).toNat = 1 := rfl
  rw [BitVec.toNat_add, hone]
  omega

/-! ### What each kind of step writes -/

/-- Settles O20: INIT, FINAL and Reset are the kinds of step that write H. -/
theorem hashStateIsWrittenInThreeWays : Obligations.HashStateIsWrittenInThreeWays := by
  intro s u h
  cases stepEffect_of_step h with
  | init hn hb hp hd => exact .inr (.inl ⟨hn, hb, ⟨_, hp, hd⟩, rfl⟩)
  | final hn hb ht => exact .inr (.inr (.inl ⟨hn, hb, ht, by simp [addLanes]⟩))
  | reset hr => exact .inr (.inr (.inr ⟨hr, rfl⟩))
  | records hn hr hu =>
    obtain ⟨⟨hh, -⟩, -⟩ := frame_of_records hu
    exact .inl hh.symm
  | idle => exact .inl rfl
  | start | wrmb | round => exact .inl (by simp [moveTaken])

/-- Settles O21: WRMB and Reset are the kinds of step that write MB. -/
theorem blockBufferIsWrittenByTheHostAlone : Obligations.BlockBufferIsWrittenByTheHostAlone := by
  intro s u h
  cases stepEffect_of_step h with
  | wrmb hn hp hd => exact .inr (.inl ⟨_, _, _, hn, hp, hd, by simp [moveTaken]⟩)
  | reset hr => exact .inr (.inr ⟨hr, rfl⟩)
  | records hn hr hu =>
    obtain ⟨-, hmb⟩ := frame_of_records hu
    exact .inl hmb
  | idle => exact .inl rfl
  | init | start | round | final => exact .inl (by simp [moveTaken])

/-- Settles O22: the five kinds of step that sequence move BUSY, T and DONE. -/
theorem controlStateMovesOnlyBySequencing : Obligations.ControlStateMovesOnlyBySequencing := by
  intro s u h
  cases stepEffect_of_step h with
  | start hn hb hp hd => exact .inr (.inl ⟨hn, hb, ⟨_, hp, hd⟩, rfl, rfl, rfl⟩)
  | round hn hb ht => exact .inr (.inr (.inl ⟨hn, hb, ht, by simp [hb], by simp [toNat_succ_of_lt ht], by simp⟩))
  | final hn hb ht => exact .inr (.inr (.inr (.inl ⟨hn, hb, ht, rfl, rfl, rfl⟩)))
  | init hn hb hp hd =>
    exact .inr (.inr (.inr (.inr (.inl ⟨hn, hb, ⟨_, hp, hd⟩, by simp [moveTaken, hb], by simp [moveTaken], rfl⟩))))
  | reset hr => exact .inr (.inr (.inr (.inr (.inr ⟨hr, rfl, rfl, rfl⟩))))
  | records hn hr hu =>
    obtain ⟨⟨-, -, -, -, -, -, -, ht, hb, hdone⟩, -⟩ := frame_of_records hu
    exact .inl ⟨hb.symm, ht.symm, hdone.symm⟩
  | idle => exact .inl ⟨rfl, rfl, rfl⟩
  | wrmb => exact .inl (by simp [moveTaken])

/-- Settles O23: START, ROUND and Reset are the kinds of step that write a..e and WS. -/
theorem workingRegistersAreWrittenByStartRoundReset : Obligations.WorkingRegistersAreWrittenByStartRoundReset := by
  intro s u h
  cases stepEffect_of_step h with
  | start hn hb hp hd => exact .inr (.inl ⟨hn, hb, ⟨_, hp, hd⟩, by simp [moveTaken]⟩)
  | round hn hb ht => exact .inr (.inr (.inl ⟨hn, hb, ht⟩))
  | reset hr => exact .inr (.inr (.inr ⟨hr, rfl, rfl, rfl, rfl, rfl, rfl⟩))
  | records hn hr hu =>
    obtain ⟨⟨-, ha, hb, hc, hd, he, hws, -⟩, -⟩ := frame_of_records hu
    exact .inl ⟨ha.symm, hb.symm, hc.symm, hd.symm, he.symm, hws.symm⟩
  | idle => exact .inl ⟨rfl, rfl, rfl, rfl, rfl, rfl⟩
  | init | wrmb | final => exact .inl (by simp [moveTaken])

/-! ### The STATUS view -/

/-- The widths of the flags that STATUS shows (R27, R28, R180). -/
theorem flags_bounds (s : State) :
    s.busy.toNat ≤ 1 ∧ s.done.toNat ≤ 1 ∧ s.err.toNat ≤ 1 ∧ s.errcode.toNat < 16 :=
  ⟨Bool.toNat_le _, Bool.toNat_le _, Bool.toNat_le _, s.errcode.isLt⟩

/-- STATUS as the sum of R29: no field overlaps another, so the 32-bit sum does not wrap. -/
theorem statusWord_toNat (s : State) :
    (statusWord s).toNat = s.busy.toNat + 2 * s.done.toNat + 4 * s.err.toNat + 16 * s.errcode.toNat := by
  have hbounds := flags_bounds s
  simp [statusWord, BitVec.toNat_add, BitVec.toNat_mul]
  omega

theorem statusWord_getLsbD (s : State) (i : Nat) :
    (statusWord s).getLsbD i =
      decide ((s.busy.toNat + 2 * s.done.toNat + 4 * s.err.toNat + 16 * s.errcode.toNat) / 2 ^ i % 2 = 1) := by
  rw [BitVec.getLsbD, statusWord_toNat, Nat.testBit_eq_decide_div_mod_eq]

theorem statusWord_done (s : State) : (statusWord s).getLsbD 1 = s.done := by
  have hbounds := flags_bounds s
  rw [statusWord_getLsbD]
  cases hd : s.done <;> simp <;> omega

theorem statusWord_err (s : State) : (statusWord s).getLsbD 2 = s.err := by
  have hbounds := flags_bounds s
  rw [statusWord_getLsbD]
  cases he : s.err <;> simp <;> omega

theorem statusWord_bit3 (s : State) : (statusWord s).getLsbD 3 = false := by
  have hbounds := flags_bounds s
  rw [statusWord_getLsbD]
  simp
  omega

theorem statusWord_errcode (s : State) : (statusWord s).extractLsb' 4 4 = s.errcode := by
  have hbounds := flags_bounds s
  apply BitVec.eq_of_toNat_eq
  rw [BitVec.extractLsb'_toNat, statusWord_toNat, Nat.shiftRight_eq_div_pow]
  omega

theorem statusWord_reserved (s : State) : (statusWord s).extractLsb' 8 24 = 0#24 := by
  have hbounds := flags_bounds s
  apply BitVec.eq_of_toNat_eq
  rw [BitVec.extractLsb'_toNat, statusWord_toNat, Nat.shiftRight_eq_div_pow, BitVec.toNat_ofNat]
  omega

/-- A write to STATUS is `BAD_ACCESS` (R29, R75, R184). -/
theorem transact_writeStatus (v : Word) (s : State) :
    transact (regWrite offStatus v) s = .next (rejectWith .write .badAccess s) := by
  have hd : decodeAccess (regWrite offStatus v) = .reject .badAccess := by
    rw [decodeAccess_regWrite]
    rfl
  rw [transact, hd]
  rfl

/-- Settles O24: the bits and the read-only window on them follow from STATUS as a sum. -/
theorem statusIsAReadOnlyViewOfTheFlags : Obligations.StatusIsAReadOnlyViewOfTheFlags :=
  ⟨fun s => ⟨statusWord_bit0 s, statusWord_done s, statusWord_err s, statusWord_bit3 s, statusWord_errcode s,
      statusWord_reserved s, statusWord_toNat s⟩,
    rfl, transact_rdStatus,
    fun v s => ⟨_, transact_writeStatus v s, rejectWith_spec .write .badAccess s⟩⟩

/-! ### The invariants of R31 -/

theorem inv_reset : Inv State.reset where
  t_le := by decide
  idle_t _ := rfl
  busy_done := by decide
  err_code := by decide
  code_le := by decide

/-- The invariants read T, BUSY, DONE and the error record only. -/
theorem Inv.congr {s u : State} (hi : Inv s) (ht : u.t = s.t) (hb : u.busy = s.busy) (hd : u.done = s.done)
    (he : u.err = s.err) (hk : u.errcode = s.errcode) : Inv u := by
  constructor
  · exact ht ▸ hi.t_le
  · exact ht ▸ hb ▸ hi.idle_t
  · exact hb ▸ hd ▸ hi.busy_done
  · exact he ▸ hk ▸ hi.err_code
  · exact hk ▸ hi.code_le

theorem Inv.applyReset (s : State) : Inv (applyReset s) := inv_reset.congr rfl rfl rfl rfl rfl

/-- Settles O18: Reset writes every register the invariants read. -/
theorem invariantsHoldAfterReset : Obligations.InvariantsHoldAfterReset := ⟨inv_reset, Inv.applyReset⟩

theorem Inv.useTurn {s : State} (hi : Inv s) : Inv (useTurn s) := hi.congr (by simp) (by simp) (by simp) (by simp) (by simp)

theorem Inv.moveTaken {s : State} (hi : Inv s) : Inv (moveTaken s) := hi.useTurn.congr rfl rfl rfl rfl rfl

theorem Inv.loadIv {s : State} (hi : Inv s) : Inv (loadIv s) := { hi with busy_done := fun _ => rfl }

theorem Inv.loadBlock {s : State} (hi : Inv s) : Inv (loadBlock s) :=
  { hi with t_le := Nat.zero_le _, idle_t := fun _ => rfl, busy_done := fun _ => rfl }

theorem Inv.writeBlock {s : State} (idx : BitVec 4) (v : Word) (hi : Inv s) : Inv (writeBlock idx v s) :=
  hi.congr rfl rfl rfl rfl rfl

theorem Inv.roundUpdate {s : State} (g : Stage) (hi : Inv s) (hb : s.busy = true) (ht : s.t.toNat < 80) :
    Inv (roundUpdate g s) :=
  { hi with
    t_le := by
      rw [roundUpdate_t, toNat_succ_of_lt ht]
      omega
    idle_t := fun h => by simp [hb] at h }

theorem Inv.finalUpdate {s : State} (hi : Inv s) : Inv (finalUpdate s) :=
  { hi with t_le := Nat.zero_le _, idle_t := fun _ => rfl, busy_done := fun h => by simp at h }

/-- The recorded code is one of 1 to 4 (R180). -/
theorem errCodeBits_bounds (c : ErrorCode) : errCodeBits c ≠ 0#4 ∧ (errCodeBits c).toNat ≤ 4 := by
  cases c <;> decide

theorem Inv.onlyRecords {s u : State} (hi : Inv s) (h : OnlyRecords s u) : Inv u := by
  obtain ⟨p, er, k, r, rfl, ⟨rfl, rfl⟩ | ⟨-, rfl, c, rfl⟩⟩ := h
  · exact hi.congr rfl rfl rfl rfl rfl
  · obtain ⟨hne, hle⟩ := errCodeBits_bounds c
    exact { hi with err_code := by simp [hne], code_le := hle }

/-- Every kind of step keeps the invariants. -/
theorem Inv.step {s u : State} (hi : Inv s) (h : step s = .next u) : Inv u := by
  cases stepEffect_of_step h with
  | idle => exact hi
  | reset => exact .applyReset _
  | init => exact hi.moveTaken.loadIv
  | start => exact hi.moveTaken.loadBlock
  | wrmb => exact hi.moveTaken.writeBlock _ _
  | records hn hr hu => exact hi.moveTaken.onlyRecords hu
  | round hn hb ht => exact hi.useTurn.roundUpdate _ (by simp [hb]) (by simp [ht])
  | final => exact hi.useTurn.finalUpdate

/-- Settles O19, one lemma per kind of step. -/
theorem everyStepKeepsTheInvariants : Obligations.EveryStepKeepsTheInvariants :=
  ⟨inv_reset, fun _ _ hi h => hi.step h, fun s => ⟨statusWord_bit3 s, statusWord_reserved s⟩⟩

/-! ### The hidden registers -/

/-- `s` with the hidden registers `a..e` and `WS` of `w` (R32). -/
def withHiddenOf (w s : State) : State := { s with a := w.a, b := w.b, c := w.c, d := w.d, e := w.e, ws := w.ws }

theorem eq_withHiddenOf {s u : State} (h : SameVisible s u) : u = withHiddenOf u s := by
  unfold SameVisible at h
  cases u
  simp_all [withHiddenOf]

theorem sameVisible_withHiddenOf (w s : State) : SameVisible s (withHiddenOf w s) := by simp [SameVisible, withHiddenOf]

@[simp] theorem withHiddenOf_h (w s : State) : (withHiddenOf w s).h = s.h := rfl
@[simp] theorem withHiddenOf_busy (w s : State) : (withHiddenOf w s).busy = s.busy := rfl
@[simp] theorem loadIv_withHiddenOf (w s : State) : loadIv (withHiddenOf w s) = withHiddenOf w (loadIv s) := rfl
@[simp] theorem loadBlock_withHiddenOf (w s : State) : loadBlock (withHiddenOf w s) = loadBlock s := rfl
@[simp] theorem reply_withHiddenOf (v : Word) (w s : State) : reply v (withHiddenOf w s) = withHiddenOf w (reply v s) := rfl

@[simp] theorem rejectWith_busy (k : Kind) (c : ErrorCode) (s : State) : (rejectWith k c s).busy = s.busy := by
  rw [rejectWith_spec k c s]

@[simp] theorem rejectWith_withHiddenOf (w : State) (k : Kind) (c : ErrorCode) (s : State) :
    rejectWith k c (withHiddenOf w s) = withHiddenOf w (rejectWith k c s) := by
  rw [rejectWith_spec k c s, rejectWith_spec k c (withHiddenOf w s)]
  rfl

/-- What the host cannot tell apart: the states are the same, or the engine is idle and only hidden registers differ. BUSY
comes with equality because START overwrites every hidden register. -/
def Indistinguishable (s u : State) : Prop := u = s ∨ (s.busy = false ∧ ∃ w, u = withHiddenOf w s)

theorem Indistinguishable.sameVisible {s u : State} (h : Indistinguishable s u) : SameVisible s u := by
  rcases h with rfl | ⟨-, w, rfl⟩
  · simp [SameVisible]
  · exact sameVisible_withHiddenOf w s

theorem Indistinguishable.of_idle (w : State) {s : State} (hb : s.busy = false) :
    Indistinguishable s (withHiddenOf w s) := .inr ⟨hb, w, rfl⟩

/-- A transaction row on an idle engine reads no hidden register, and START overwrites them all. -/
theorem exec_withHiddenOf (w : State) {i : Instr} (hi : i.isTransaction = true) {s : State} (hb : s.busy = false) :
    ∃ s' u', exec i s = .next s' ∧ exec i (withHiddenOf w s) = .next u' ∧ Indistinguishable s' u' := by
  refine ⟨_, _, exec_transaction_next hi, exec_transaction_next hi, ?_⟩
  cases i with
  | nop => exact .of_idle w hb
  | init => simpa [hb] using Indistinguishable.of_idle w (s := loadIv s) hb
  | start => exact .inl (by simp [hb])
  | wrmb idx v => exact .of_idle w (s := writeBlock idx v s) hb
  | rdmb idx => exact .of_idle w (s := reply (readBlock idx s) s) hb
  | rdstatus => exact .of_idle w (s := reply (statusWord s) s) hb
  | rdh idx =>
    by_cases h : idx.toNat < 5
    · simpa [h] using Indistinguishable.of_idle w (s := reply s.h[idx.toNat] s) hb
    · simpa [h] using Indistinguishable.of_idle w (s := rejectWith .read .badAddr s) (by simp [hb])
  | _ => cases hi

/-- A move of the host on an idle engine reads no hidden register. -/
theorem hostMove_withHiddenOf (w : State) (m : HostMove) {s : State} (hb : s.busy = false) :
    ∃ s' u', hostMove m s = .next s' ∧ hostMove m (withHiddenOf w s) = .next u' ∧ Indistinguishable s' u' := by
  cases m with
  | reset => exact ⟨_, _, rfl, rfl, .inl rfl⟩
  | wait => exact ⟨_, _, hostMove_wait s, hostMove_wait _, .of_idle w hb⟩
  | access a =>
    simp only [hostMove, transact]
    cases hd : decodeAccess a with
    | op i => exact exec_withHiddenOf w (decodeAccess_isTransaction hd) hb
    | reject c => exact ⟨_, _, rfl, rfl, by simpa using Indistinguishable.of_idle w (by simp [hb])⟩

/-- While the engine is idle the host's program alone decides who moves next. -/
theorem nextAgent_withHiddenOf (w : State) {s : State} (hb : s.busy = false) :
    nextAgent (withHiddenOf w s) = nextAgent s := by
  have hbw : (withHiddenOf w s).busy = false := hb
  simp only [nextAgent, contested, engineReady_of_idle hb, engineReady_of_idle hbw]
  rfl

/-- One step does not tell the two states apart. -/
theorem Indistinguishable.step {s u s' : State} (h : Indistinguishable s u) (hs : step s = .next s') :
    ∃ u', step u = .next u' ∧ Indistinguishable s' u' := by
  rcases h with rfl | ⟨hb, w, rfl⟩
  · exact ⟨s', hs, .inl rfl⟩
  · have hn := nextAgent_withHiddenOf w hb
    rcases step_cases s with ⟨hi, hstep⟩ | ⟨hh, m, rest, hp, hstep⟩ | ⟨-, hbusy, -⟩ | ⟨-, hbusy, -⟩
    · cases hstep.symm.trans hs
      exact ⟨_, by simp [Machine.step, hn, hi], .of_idle w hb⟩
    · have hbw : (withHiddenOf w s).busy = false := hb
      rw [useTurn_of_not_contested (not_contested_of_idle hb)] at hstep
      have hstepw := step_host (hn.trans hh) (m := m) (rest := rest) hp
      rw [useTurn_of_not_contested (not_contested_of_idle hbw)] at hstepw
      obtain ⟨v, u', hv, hu', hvu⟩ := hostMove_withHiddenOf w m (s := { s with pending := rest }) hb
      cases (hstep.trans hv).symm.trans hs
      exact ⟨u', hstepw.trans hu', hvu⟩
    · simp [hb] at hbusy
    · simp [hb] at hbusy

/-- A run of `k + 1` steps that ends in a next state makes a step and then runs `k`. -/
theorem step_of_run_succ {M : Host.Core} {s s' : M.State} {k : Nat} (h : M.run (k + 1) s = .next s') :
    ∃ v, M.step s = .next v ∧ M.run k v = .next s' := by
  cases hv : M.step s with
  | next v => exact ⟨v, rfl, (run_succ_of_step M k hv).symm.trans h⟩
  | fault r => simp [Host.Core.run, hv] at h
  | refused r => simp [Host.Core.run, hv] at h

/-- No number of steps tells the two states apart. -/
theorem Indistinguishable.run {s u s' : State} {k : Nat} (h : Indistinguishable s u)
    (hs : Sys2Proof.core.run k s = .next s') :
    ∃ u', Sys2Proof.core.run k u = .next u' ∧ Indistinguishable s' u' := by
  induction k generalizing s u with
  | zero =>
    cases hs
    exact ⟨u, rfl, h⟩
  | succ k ih =>
    obtain ⟨v, hv, hrun⟩ := step_of_run_succ hs
    obtain ⟨v', hv', hvv⟩ := h.step hv
    obtain ⟨u', hu', hsu⟩ := ih hvv hrun
    exact ⟨u', (run_succ_of_step Sys2Proof.core k hv').trans hu', hsu⟩

/-- Settles O26: every step keeps the two states indistinguishable, by induction on the number of steps. -/
theorem hiddenRegistersAreInvisible : Obligations.HiddenRegistersAreInvisible := by
  intro s u hsu hb k s' hs
  have h : Indistinguishable s u := .inr ⟨hb, u, eq_withHiddenOf hsu⟩
  obtain ⟨u', hu, h'⟩ := h.run hs
  exact ⟨u', hu, h'.sameVisible⟩

end Sys2Proof.Machine

/-! PROOFS. The statements of 20_memory.md: the host's transactions one at a time, reads without side effects, and the byte order
of the digest. -/

namespace Sys2Proof.Machine

/-! ### A transaction is its decoded operation or its rejection -/

theorem transact_of_op {a : Access} {i : Instr} (hd : decodeAccess a = .op i) (s : State) : transact a s = exec i s := by
  simp [transact, hd]

theorem transact_of_reject {a : Access} {c : ErrorCode} (hd : decodeAccess a = .reject c) (s : State) :
    transact a s = .next (rejectWith a.kind c s) := by
  simp [transact, hd]

/-- Settles O12: the host's turn makes its oldest move, and an access moves by what it decodes to. -/
theorem stepRunsTheDecodedTransaction : Obligations.StepRunsTheDecodedTransaction := by
  intro s a rest hn hp
  exact ⟨fun i hd => (step_host hn hp).trans (transact_of_op hd _),
    fun k hd => (step_host hn hp).trans (transact_of_reject hd _)⟩

/-! ### Reads -/

/-- The map selects only the five registers of H that exist (R72). -/
theorem selectTarget_hash_le {off : BitVec 8} {idx : BitVec 3} (h : selectTarget off = .hash idx) : idx.toNat ≤ 4 := by
  unfold selectTarget at h
  split_ifs at h
  cases h
  assumption

/-- The three operations a read decodes to (R75). -/
theorem decodeFields_read {off : BitVec 8} {data : Word} {i : Instr} (h : decodeFields .read off data = .op i) :
    i = .rdstatus ∨ (∃ idx, i = .rdmb idx) ∨ ∃ idx : BitVec 3, idx.toNat ≤ 4 ∧ i = .rdh idx := by
  unfold decodeFields at h
  split at h
  · cases h
  · cases ht : selectTarget off with (rw [ht] at h; cases h)
    | status => exact .inl rfl
    | block idx => exact .inr (.inl ⟨idx, rfl⟩)
    | hash idx => exact .inr (.inr ⟨idx, selectTarget_hash_le ht, rfl⟩)

theorem decodeAccess_read {a : Access} {i : Instr} (hk : a.kind = .read) (h : decodeAccess a = .op i) :
    i = .rdstatus ∨ (∃ idx, i = .rdmb idx) ∨ ∃ idx : BitVec 3, idx.toNat ≤ 4 ∧ i = .rdh idx := by
  rw [decodeAccess_eq, hk] at h
  split at h
  · exact decodeFields_read h
  · cases h

/-- RDH of a register that exists returns it (R127). -/
theorem execRdh_of_le {idx : BitVec 3} (h : idx.toNat ≤ 4) (s : State) :
    execRdh idx s = .next (reply s.h[idx.toNat] s) := dif_pos _

/-- An accepted read returns one value and does nothing else (R56, R126). -/
theorem transact_read_op {a : Access} {i : Instr} (hk : a.kind = .read) (hd : decodeAccess a = .op i) (s : State) :
    ∃ v, transact a s = .next (reply v s) := by
  rw [transact_of_op hd]
  rcases decodeAccess_read hk hd with rfl | ⟨idx, rfl⟩ | ⟨idx, hle, rfl⟩
  · exact ⟨_, rfl⟩
  · exact ⟨_, rfl⟩
  · exact ⟨_, execRdh_of_le hle s⟩

theorem sameRegisters_reply (v : Word) (s : State) : SameRegisters s (reply v s) := by simp [SameRegisters]

/-- Settles O31: an accepted read only replies, and a rejected one only replies 0 and raises its error. -/
theorem readTransactionsHaveNoSideEffect : Obligations.ReadTransactionsHaveNoSideEffect := by
  intro a s hk
  cases hd : decodeAccess a with
  | op i =>
    obtain ⟨v, hv⟩ := transact_read_op hk hd s
    exact ⟨_, v, hv, rfl, fun _ => sameRegisters_reply v s, by simp⟩
  | reject c =>
    obtain ⟨hsame, hmb⟩ := (onlyRecords_reject .read c s).frame
    refine ⟨rejectWith .read c s, 0#32, hk ▸ transact_of_reject hd s, by simp [rejectWith], by simp, ?_⟩
    exact fun _ => ⟨rfl, hsame, hmb⟩

/-! ### The byte order of the digest -/

/-- Byte `j` of a word, most significant first (R51). -/
theorem wordBytes_getElem? (w : Word) {j : Nat} (hj : j < 4) :
    (wordBytes w)[j]? = some (w.extractLsb' (24 - 8 * j) 8) := by
  match j, hj with
  | 0, _ | 1, _ | 2, _ | 3, _ => rfl

/-- Serialised words stand four bytes apart. -/
theorem flatMap_wordBytes_getElem? (l : List Word) (i : Nat) {j : Nat} (hj : j < 4) :
    (l.flatMap wordBytes)[4 * i + j]? = l[i]?.map (·.extractLsb' (24 - 8 * j) 8) := by
  induction l generalizing i with
  | nil => simp
  | cons w ws ih =>
    cases i with
    | zero =>
      rw [List.flatMap_cons, Nat.mul_zero, Nat.zero_add, List.getElem?_append_left hj, wordBytes_getElem? w hj]
      rfl
    | succ i =>
      have hpast : 4 * (i + 1) + j - 4 = 4 * i + j := by omega
      rw [List.flatMap_cons, List.getElem?_append_right (by simp; omega), wordBytes_length, hpast, ih,
        List.getElem?_cons_succ]

@[simp] theorem digestBytes_length (h : HashState) : (digestBytes h).length = 20 := by
  simp [digestBytes, List.length_flatMap]

/-- Settles O47: word `i` of the hash state starts at byte `4i` of the serialisation. -/
theorem digestBytesAreBigEndian : Obligations.DigestBytesAreBigEndian := by
  intro h
  refine ⟨digestBytes_length h, fun i j hj => ?_⟩
  rw [digestBytes, flatMap_wordBytes_getElem? _ _ hj]
  simp

end Sys2Proof.Machine

/-! PROOFS. The statements of 30_encoding.md: encoder and decoder agree, the opcode map by match and mask, the decoder line by line,
the sequencer rows by (BUSY, T), and the host moves `withFetchWord` and `wait` stand for. -/

namespace Sys2Proof

/-! ### The register map and the offsets of the encoder (R55, R72) -/

theorem offHash_toNat : ∀ idx : BitVec 3, (offHash idx).toNat = 0x20 + 4 * idx.toNat := by decide

theorem offBlock_toNat : ∀ idx : BitVec 4, (offBlock idx).toNat = 0x40 + 4 * idx.toNat := by decide

theorem eq_offHash_ofNat {off : BitVec 8} {idx : Nat} (hidx : idx ≤ 4) (h : off.toNat = 0x20 + 4 * idx) :
    off = offHash (BitVec.ofNat 3 idx) := by
  apply BitVec.eq_of_toNat_eq
  rw [h, offHash_toNat, BitVec.toNat_ofNat, Nat.mod_eq_of_lt (by omega)]

theorem eq_offBlock_ofNat {off : BitVec 8} {idx : Nat} (hidx : idx ≤ 15) (h : off.toNat = 0x40 + 4 * idx) :
    off = offBlock (BitVec.ofNat 4 idx) := by
  apply BitVec.eq_of_toNat_eq
  rw [h, offBlock_toNat, BitVec.toNat_ofNat, Nat.mod_eq_of_lt (by omega)]

theorem offHash_aligned : ∀ idx : BitVec 3, (offHash idx).extractLsb' 0 2 = 0#2 := by decide

theorem offBlock_aligned : ∀ idx : BitVec 4, (offBlock idx).extractLsb' 0 2 = 0#2 := by decide

theorem selectTarget_offHash : ∀ idx : BitVec 3, idx.toNat ≤ 4 → selectTarget (offHash idx) = .hash idx := by decide

theorem selectTarget_offBlock : ∀ idx : BitVec 4, selectTarget (offBlock idx) = .block idx := by decide

/-- An offset is `MB[idx]`'s where the bits that R76 fixes are so, and `idx` is the field between them. -/
theorem eq_offBlock_iff {off : BitVec 8} {idx : BitVec 4} :
    off = offBlock idx ↔ off &&& 0xC3#8 = 0x40#8 ∧ idx = off.extractLsb' 2 4 := by
  have hself : ∀ idx : BitVec 4, offBlock idx &&& 0xC3#8 = 0x40#8 ∧ (offBlock idx).extractLsb' 2 4 = idx := by decide
  have hback : ∀ off : BitVec 8, off &&& 0xC3#8 = 0x40#8 → off = offBlock (off.extractLsb' 2 4) := by decide
  constructor
  · rintro rfl
    obtain ⟨hmatch, hidx⟩ := hself idx
    exact ⟨hmatch, hidx.symm⟩
  · rintro ⟨hmatch, rfl⟩
    exact hback off hmatch

/-- An offset is `H[idx]`'s place in the map where the bits that R76 fixes are so, and `idx` is the field between them. -/
theorem eq_offHash_iff {off : BitVec 8} {idx : BitVec 3} :
    off = offHash idx ↔ off &&& 0xE3#8 = 0x20#8 ∧ idx = off.extractLsb' 2 3 := by
  have hself : ∀ idx : BitVec 3, offHash idx &&& 0xE3#8 = 0x20#8 ∧ (offHash idx).extractLsb' 2 3 = idx := by decide
  have hback : ∀ off : BitVec 8, off &&& 0xE3#8 = 0x20#8 → off = offHash (off.extractLsb' 2 3) := by decide
  constructor
  · rintro rfl
    obtain ⟨hmatch, hidx⟩ := hself idx
    exact ⟨hmatch, hidx.symm⟩
  · rintro ⟨hmatch, rfl⟩
    exact hback off hmatch

/-- `off` is the one offset the map gives a register; of a reserved place nothing is said. -/
def Target.HasOffset (off : BitVec 8) : Target → Prop
  | .cmd => off = offCmd
  | .status => off = offStatus
  | .hash idx => off = offHash idx ∧ idx.toNat ≤ 4
  | .block idx => off = offBlock idx
  | .reserved => True

/-- An aligned offset is the offset of the register it selects. -/
theorem selectTarget_hasOffset {off : BitVec 8} (ha : off.extractLsb' 0 2 = 0#2) : (selectTarget off).HasOffset off := by
  have hblock : ∀ off : BitVec 8, off.extractLsb' 0 2 = 0#2 → off.extractLsb' 6 2 = 0b01#2 →
      off = offBlock (off.extractLsb' 2 4) := by decide
  have hhash : ∀ off : BitVec 8, off.extractLsb' 0 2 = 0#2 → off.extractLsb' 5 3 = 0b001#3 →
      off = offHash (off.extractLsb' 2 3) := by decide
  unfold selectTarget
  split_ifs with _ h01 h001 hidx hcmd hstatus
  · trivial
  · exact hblock off ha h01
  · exact ⟨hhash off ha h001, hidx⟩
  · trivial
  · exact hcmd
  · exact hstatus
  · trivial

/-! ### The decoder at each register (R75) -/

section
variable (data : Word)

theorem decodeFields_misaligned (k : Kind) {off : BitVec 8} (h : off.extractLsb' 0 2 ≠ 0#2) :
    decodeFields k off data = .reject .badAddr := if_pos h

theorem decodeFields_reserved (k : Kind) {off : BitVec 8} (h : selectTarget off = .reserved) :
    decodeFields k off data = .reject .badAddr := by
  simp [decodeFields, h]

theorem decodeFields_write_offCmd : decodeFields .write offCmd data = decodeCommand data := rfl

theorem decodeFields_read_offCmd : decodeFields .read offCmd data = .reject .badAccess := rfl

theorem decodeFields_read_offStatus : decodeFields .read offStatus data = .op .rdstatus := rfl

theorem decodeFields_write_offStatus : decodeFields .write offStatus data = .reject .badAccess := rfl

theorem decodeFields_read_offHash {idx : BitVec 3} (h : idx.toNat ≤ 4) :
    decodeFields .read (offHash idx) data = .op (.rdh idx) := by
  simp [decodeFields, offHash_aligned, selectTarget_offHash idx h]

theorem decodeFields_write_offHash {idx : BitVec 3} (h : idx.toNat ≤ 4) :
    decodeFields .write (offHash idx) data = .reject .badAccess := by
  simp [decodeFields, offHash_aligned, selectTarget_offHash idx h]

theorem decodeFields_read_offBlock (idx : BitVec 4) : decodeFields .read (offBlock idx) data = .op (.rdmb idx) := by
  simp [decodeFields, offBlock_aligned, selectTarget_offBlock]

theorem decodeFields_write_offBlock (idx : BitVec 4) :
    decodeFields .write (offBlock idx) data = .op (.wrmb idx data) := by
  simp [decodeFields, offBlock_aligned, selectTarget_offBlock]

end

/-- The command words that name an operation, and the operations they name (R73). -/
theorem decodeCommand_eq_op_iff {data : Word} {i : Instr} :
    decodeCommand data = .op i ↔
      (data = 0#32 ∧ i = .nop) ∨ (data = 1#32 ∧ i = .init) ∨ (data = 2#32 ∧ i = .start) := by
  constructor
  · intro h
    unfold decodeCommand at h
    split_ifs at h with hlow h0 h1
    · exact .inl ⟨h0, by cases h; rfl⟩
    · exact .inr (.inl ⟨h1, by cases h; rfl⟩)
    · exact .inr (.inr ⟨by bv_omega, by cases h; rfl⟩)
  · rintro (⟨rfl, rfl⟩ | ⟨rfl, rfl⟩ | ⟨rfl, rfl⟩) <;> rfl

theorem decodeCommand_illegal {data : Word} (h : 3 ≤ data.toNat) : decodeCommand data = .reject .illegalCmd := if_pos h

/-! ### Encoder and decoder agree (R70, R74, R76) -/

/-- The data field in the canonical form of a transaction word: a read carries 0 (R70). -/
def canonicalData : Kind → Word → Word
  | .write, data => data
  | .read, _ => 0#32

/-- The decoder ignores the data field of a read (R70). -/
theorem decodeFields_canonicalData (k : Kind) (off : BitVec 8) (data : Word) :
    decodeFields k off (canonicalData k data) = decodeFields k off data := by
  cases k with
  | write => rfl
  | read =>
    unfold decodeFields
    cases selectTarget off <;> rfl

theorem encode_rdh_eq_some_iff {idx : BitVec 3} {tw : TransactionWord} :
    encode (.rdh idx) = some tw ↔ idx.toNat ≤ 4 ∧ packWord .read (offHash idx) 0#32 = tw := by
  simp [encode]

/-- The word of a row decodes to that row. -/
theorem decodeWord_of_encode {i : Instr} {tw : TransactionWord} (h : encode i = some tw) : decodeWord tw = .op i := by
  cases i with
  | nop | init | start | rdstatus => cases h; rfl
  | wrmb idx data =>
    cases h
    rw [decodeWord_packWord, decodeFields_write_offBlock]
  | rdmb idx =>
    cases h
    rw [decodeWord_packWord, decodeFields_read_offBlock]
  | rdh idx =>
    obtain ⟨hidx, rfl⟩ := encode_rdh_eq_some_iff.1 h
    rw [decodeWord_packWord, decodeFields_read_offHash _ hidx]
  | roundCh | roundPar1 | roundMaj | roundPar2 | final => cases h

/-- What fields decode to has them, in canonical form, as its word. -/
theorem encode_of_decodeFields {k : Kind} {off : BitVec 8} {data : Word} {i : Instr}
    (h : decodeFields k off data = .op i) : encode i = some (packWord k off (canonicalData k data)) := by
  by_cases ha : off.extractLsb' 0 2 = 0#2
  · have hoff := selectTarget_hasOffset ha
    cases ht : selectTarget off with (rw [ht] at hoff)
    | reserved => simp [decodeFields_reserved data k ht] at h
    | cmd =>
      obtain rfl : off = offCmd := hoff
      cases k with
      | read => cases h
      | write =>
        rw [decodeFields_write_offCmd, decodeCommand_eq_op_iff] at h
        obtain ⟨rfl, rfl⟩ | ⟨rfl, rfl⟩ | ⟨rfl, rfl⟩ := h <;> rfl
    | status =>
      obtain rfl : off = offStatus := hoff
      cases k with
      | read => cases h; rfl
      | write => cases h
    | hash idx =>
      obtain ⟨rfl, hidx⟩ : off = offHash idx ∧ idx.toNat ≤ 4 := hoff
      cases k with
      | read =>
        cases (decodeFields_read_offHash data hidx).symm.trans h
        simp [encode, hidx, canonicalData]
      | write => simp [decodeFields_write_offHash data hidx] at h
    | block idx =>
      obtain rfl : off = offBlock idx := hoff
      cases k with
      | read => cases (decodeFields_read_offBlock data idx).symm.trans h; rfl
      | write => cases (decodeFields_write_offBlock data idx).symm.trans h; rfl
  · simp [decodeFields_misaligned data k ha] at h

/-- Decoding is the inverse of encoding, up to the data field of a read. -/
theorem decodeFields_eq_op_iff {k : Kind} {off : BitVec 8} {data : Word} {i : Instr} :
    decodeFields k off data = .op i ↔ encode i = some (packWord k off (canonicalData k data)) := by
  refine ⟨encode_of_decodeFields, fun h => ?_⟩
  rw [← decodeFields_canonicalData, ← decodeWord_packWord]
  exact decodeWord_of_encode h

/-- The encoder has a word for exactly the well-formed transaction rows. -/
theorem encode_isSome (i : Instr) : (encode i).isSome = (i.wellFormed && i.isTransaction) := by
  cases i with
  | rdh idx => exact Laws.HasWord.rdh idx
  | _ => rfl

/-- Settles O1: a well-formed transaction row has a word, and the word of a row decodes to that row. -/
theorem encodedInstructionDecodesToItself : Obligations.EncodedInstructionDecodesToItself := by
  intro i hwf hi
  obtain ⟨tw, htw⟩ : ∃ tw, encode i = some tw := Option.isSome_iff_exists.1 (by rw [encode_isSome, hwf, hi]; rfl)
  exact ⟨tw, htw, decodeWord_of_encode htw⟩

theorem exists_packWord (tw : TransactionWord) : ∃ k off data, tw = packWord k off data :=
  ⟨_, _, _, eq_packWord_of_fields tw⟩

/-- A mask that keeps the kind bit selects by the kind and by the masked fields. -/
theorem packWord_and_eq_iff {k k' : Kind} {off moff off' : BitVec 8} {data mdata data' : Word} :
    packWord k off data &&& packWord .write moff mdata = packWord k' off' data' ↔
      k = k' ∧ off &&& moff = off' ∧ data &&& mdata = data' := by
  rw [packWord_and, packWord_inj]
  cases k <;> simp

theorem packWord_kind (k : Kind) (off : BitVec 8) (data : Word) :
    (packWord k off data).getLsbD 40 = decide (k = .write) := by
  rw [packWord_getLsbD]
  cases k <;> rfl

/-- The canonical form of a transaction word (R70) keeps a write and masks the data of a read. -/
theorem canonicalWord_packWord (k : Kind) (off : BitVec 8) (data : Word) :
    (if (packWord k off data).getLsbD 40 then packWord k off data else packWord k off data &&& 0x1FF00000000#41) =
      packWord k off (canonicalData k data) := by
  have hmask : 0x1FF00000000#41 = packWord .write 0xFF#8 0#32 := rfl
  have hoff : off &&& 0xFF#8 = off := BitVec.and_allOnes
  rw [packWord_kind]
  cases k with
  | write => rfl
  | read => simp [hmask, packWord_and, hoff, canonicalData]

/-- Settles O2: what a word decodes to has the word's canonical form as its encoding, so it is a well-formed transaction row. -/
theorem decodedWordEncodesToItsCanonicalForm : Obligations.DecodedWordEncodesToItsCanonicalForm := by
  intro tw i h
  obtain ⟨k, off, data, rfl⟩ := exists_packWord tw
  rw [decodeWord_packWord] at h
  have henc := encode_of_decodeFields h
  have hsome := encode_isSome i
  rw [henc, Option.isSome_some, eq_comm, Bool.and_eq_true] at hsome
  obtain ⟨hwf, hi⟩ := hsome
  exact ⟨hwf, hi, by rw [henc, canonicalWord_packWord]⟩

/-! ### The decoder with BUSY (R75) -/

section
variable {k : Kind} {off : BitVec 8} {data : Word} {busy : Bool} {i : Instr} {c : ErrorCode}

theorem decodeWhile_of_reject (h : decodeFields k off data = .reject c) : decodeWhile k off data busy = .reject c := by
  simp [decodeWhile, h]

theorem decodeWhile_of_op (h : decodeFields k off data = .op i) (hi : ¬ (i = .init ∨ i = .start)) :
    decodeWhile k off data busy = .op i := by
  obtain ⟨hinit, hstart⟩ := not_or.1 hi
  simp [decodeWhile, h, hinit, hstart]

theorem decodeWhile_command (h : decodeFields k off data = .op i) (hi : i = .init ∨ i = .start) :
    decodeWhile k off data busy = if busy then .reject .cmdWhileBusy else .op i := by
  rcases hi with rfl | rfl <;> simp [decodeWhile, h]

/-- BUSY only stands in the way of INIT and START. -/
theorem decodeWhile_eq_op_iff :
    decodeWhile k off data busy = .op i ↔
      decodeFields k off data = .op i ∧ (i = .init ∨ i = .start → busy = false) := by
  cases h : decodeFields k off data with
  | reject c => simp [decodeWhile_of_reject h]
  | op j =>
    by_cases hj : j = .init ∨ j = .start
    · rw [decodeWhile_command h hj]
      cases busy with
      | false => simp
      | true =>
        have hno : ¬ (j = i ∧ ¬ (i = .init ∨ i = .start)) := fun ⟨hji, hi⟩ => hi (hji ▸ hj)
        simpa using hno
    · rw [decodeWhile_of_op h hj, Decoded.op.injEq]
      exact ⟨fun hji => ⟨hji, fun hi => absurd (hji ▸ hi) hj⟩, And.left⟩

end

/-! ### The decoder line by line (R75) -/

/-- The reserved ranges of the map (R55, R72). -/
theorem selectTarget_reserved {off : BitVec 8} (ha : off.toNat % 4 = 0) (hr : Machine.ReservedOffset off.toNat) :
    selectTarget off = .reserved := by
  obtain ⟨halign, hmap⟩ := selectTarget_by_range off
  rw [hmap (by simpa [ha] using halign), if_pos]
  obtain hr | hr | ⟨hr, -⟩ := hr
  · exact .inl hr
  · exact .inr (.inl hr)
  · exact .inr (.inr hr)

/-- Settles O4, each line by the decoder at the offsets it names. -/
theorem decoderIsItsFirstMatchingLine : Obligations.DecoderIsItsFirstMatchingLine := by
  intro k off data busy
  have hcmd : off.toNat = 0x00 → off = offCmd := fun h => BitVec.eq_of_toNat_eq h
  have hstatus : off.toNat = 0x04 → off = offStatus := fun h => BitVec.eq_of_toNat_eq h
  obtain ⟨halign, -⟩ := selectTarget_by_range off
  refine ⟨fun ha => ?_, fun ha => ⟨fun hr => ?_, ?_, fun idx hidx h => ⟨?_, ?_⟩, ?_, ?_, fun idx hidx h => ⟨?_, ?_⟩, ?_⟩⟩
  · exact decodeWhile_of_reject (decodeFields_misaligned data k (halign.2 ha))
  · exact decodeWhile_of_reject (decodeFields_reserved data k (selectTarget_reserved ha hr))
  · rintro rfl h
    obtain rfl := hstatus h
    exact decodeWhile_of_reject (decodeFields_write_offStatus data)
  · rintro rfl
    obtain rfl := eq_offHash_ofNat hidx h
    exact decodeWhile_of_reject (decodeFields_write_offHash data (by simp; omega))
  · rintro rfl
    obtain rfl := eq_offHash_ofNat hidx h
    exact decodeWhile_of_op (decodeFields_read_offHash data (by simp; omega)) (by simp)
  · rintro rfl h
    obtain rfl := hcmd h
    exact decodeWhile_of_reject (decodeFields_read_offCmd data)
  · rintro rfl h
    obtain rfl := hstatus h
    exact decodeWhile_of_op (decodeFields_read_offStatus data) (by simp)
  · rintro rfl
    obtain rfl := eq_offBlock_ofNat hidx h
    exact decodeWhile_of_op (decodeFields_read_offBlock data _) (by simp)
  · rintro rfl
    obtain rfl := eq_offBlock_ofNat hidx h
    exact decodeWhile_of_op (decodeFields_write_offBlock data _) (by simp)
  · rintro rfl h
    obtain rfl := hcmd h
    have hdata {c : Word} : data.toNat = c.toNat → data = c := BitVec.eq_of_toNat_eq
    refine ⟨fun h3 => ?_, fun h0 => ?_, fun h12 hb => ?_, fun h1 hb => ?_, fun h2 hb => ?_⟩
    · exact decodeWhile_of_reject (decodeCommand_illegal h3)
    · obtain rfl := hdata (c := 0#32) h0
      rfl
    · obtain rfl | rfl := h12.imp (hdata (c := 1#32)) (hdata (c := 2#32)) <;> (subst hb; rfl)
    · obtain rfl := hdata (c := 1#32) h1
      subst hb; rfl
    · obtain rfl := hdata (c := 2#32) h2
      subst hb; rfl

/-! ### The opcode map by match and mask (R76) -/

/-- A word decodes to a row where its canonical form is the row's word and BUSY does not stand in the way. -/
theorem decodeWordWhile_eq_op_iff {k : Kind} {off : BitVec 8} {data : Word} {busy : Bool} {i : Instr} :
    decodeWordWhile (packWord k off data) busy = .op i ↔
      encode i = some (packWord k off (canonicalData k data)) ∧ (i = .init ∨ i = .start → busy = false) := by
  rw [decodeWordWhile_packWord, decodeWhile_eq_op_iff, decodeFields_eq_op_iff]

theorem write_eq_canonical_iff {k : Kind} {off off' : BitVec 8} {data data' : Word} :
    packWord .write off' data' = packWord k off (canonicalData k data) ↔ k = .write ∧ off = off' ∧ data = data' := by
  cases k <;> simp [packWord_inj, canonicalData, eq_comm (a := off'), eq_comm (a := data')]

theorem read_eq_canonical_iff {k : Kind} {off off' : BitVec 8} {data : Word} :
    packWord .read off' 0#32 = packWord k off (canonicalData k data) ↔ k = .read ∧ off = off' := by
  cases k <;> simp [packWord_inj, canonicalData, eq_comm (a := off')]

/-- The index field of a word is that of its offset. -/
theorem index_packWord (k : Kind) (off : BitVec 8) (data : Word) {n : Nat} (hn : n ≤ 6) :
    (packWord k off data).extractLsb' 34 n = off.extractLsb' 2 n := by
  ext i hi
  rw [BitVec.getElem_extractLsb', BitVec.getElem_extractLsb', packWord_getLsbD, if_neg (by omega), if_pos (by omega)]
  congr 1
  omega

section
variable (tw : TransactionWord) (busy : Bool)

/-- The three commands are selected by the whole word. -/
theorem decodeWordWhile_command_iff {i : Instr} {m : TransactionWord} {code : Word} (hi : encode i = some m)
    (hm : m = packWord .write offCmd code) :
    decodeWordWhile tw busy = .op i ↔ tw &&& 0x1FFFFFFFFFF#41 = m ∧ (i = .init ∨ i = .start → busy = false) := by
  have hmask : tw &&& 0x1FFFFFFFFFF#41 = tw := BitVec.and_allOnes
  rw [hmask]
  obtain ⟨k, off, data, rfl⟩ := exists_packWord tw
  rw [decodeWordWhile_eq_op_iff, hi, hm, Option.some.injEq, write_eq_canonical_iff, packWord_inj]

theorem decodeWordWhile_wrmb_iff (idx : BitVec 4) (data : Word) :
    decodeWordWhile tw busy = .op (.wrmb idx data) ↔
      tw &&& 0x1C300000000#41 = 0x14000000000#41 ∧ idx = tw.extractLsb' 34 4 ∧ data = tw.extractLsb' 0 32 := by
  obtain ⟨k, off, d, rfl⟩ := exists_packWord tw
  have hmask : 0x1C300000000#41 = packWord .write 0xC3#8 0#32 := rfl
  have hmatch : 0x14000000000#41 = packWord .write 0x40#8 0#32 := rfl
  rw [decodeWordWhile_eq_op_iff, encode, Option.some.injEq, write_eq_canonical_iff, eq_offBlock_iff, hmask, hmatch,
    packWord_and_eq_iff, index_packWord _ _ _ (by omega), data_packWord]
  simp [and_assoc, eq_comm]

theorem decodeWordWhile_rdmb_iff (idx : BitVec 4) :
    decodeWordWhile tw busy = .op (.rdmb idx) ↔
      tw &&& 0x1C300000000#41 = 0x04000000000#41 ∧ idx = tw.extractLsb' 34 4 := by
  obtain ⟨k, off, d, rfl⟩ := exists_packWord tw
  have hmask : 0x1C300000000#41 = packWord .write 0xC3#8 0#32 := rfl
  have hmatch : 0x04000000000#41 = packWord .read 0x40#8 0#32 := rfl
  rw [decodeWordWhile_eq_op_iff, encode, Option.some.injEq, read_eq_canonical_iff, eq_offBlock_iff, hmask, hmatch,
    packWord_and_eq_iff, index_packWord _ _ _ (by omega)]
  simp [and_assoc]

theorem decodeWordWhile_rdh_iff (idx : BitVec 3) :
    decodeWordWhile tw busy = .op (.rdh idx) ↔
      tw &&& 0x1E300000000#41 = 0x02000000000#41 ∧ idx = tw.extractLsb' 34 3 ∧ idx.toNat ≤ 4 := by
  obtain ⟨k, off, d, rfl⟩ := exists_packWord tw
  have hmask : 0x1E300000000#41 = packWord .write 0xE3#8 0#32 := rfl
  have hmatch : 0x02000000000#41 = packWord .read 0x20#8 0#32 := rfl
  rw [decodeWordWhile_eq_op_iff, encode_rdh_eq_some_iff, read_eq_canonical_iff, eq_offHash_iff, hmask, hmatch,
    packWord_and_eq_iff, index_packWord _ _ _ (by omega)]
  simp [and_assoc, and_comm (a := idx.toNat ≤ 4)]

theorem decodeWordWhile_rdstatus_iff :
    decodeWordWhile tw busy = .op .rdstatus ↔ tw &&& 0x1FF00000000#41 = 0x00400000000#41 := by
  obtain ⟨k, off, d, rfl⟩ := exists_packWord tw
  have hmask : 0x1FF00000000#41 = packWord .write 0xFF#8 0#32 := rfl
  have hmatch : 0x00400000000#41 = packWord .read offStatus 0#32 := rfl
  have hoff : off &&& 0xFF#8 = off := BitVec.and_allOnes
  rw [decodeWordWhile_eq_op_iff, encode, Option.some.injEq, read_eq_canonical_iff, hmask, hmatch, packWord_and_eq_iff, hoff]
  simp

theorem decodeWordWhile_isTransaction {i : Instr} (h : decodeWordWhile tw busy = .op i) : i.isTransaction = true :=
  have ⟨hfields, _⟩ := decodeWhile_eq_op_iff.1 h
  decodeFields_isTransaction hfields

end

end Sys2Proof

namespace Sys2Proof.Machine

/-! ### The sequencer rows by (BUSY, T) (R71, R76) -/

/-- The condition on (BUSY, T) under which R76 selects a row; no transaction row is selected so. -/
def selects : Instr → State → Bool
  | .roundCh => selectsCh
  | .roundPar1 => selectsPar1
  | .roundMaj => selectsMaj
  | .roundPar2 => selectsPar2
  | .final => selectsFinal
  | _ => fun _ => false

/-- The control state selects a row exactly where the row's own condition holds: the five conditions exclude each other. -/
theorem selectMicroOp_eq_some_iff {s : State} {i : Instr} : selectMicroOp s = some i ↔ selects i s = true := by
  constructor
  · intro h
    obtain ⟨hb, hcases⟩ := selectMicroOp_cases h
    rcases hcases with ⟨rfl, ht⟩ | ⟨rfl, ht⟩ | ⟨rfl, ht⟩ | ⟨rfl, ht⟩ | ⟨rfl, ht⟩ <;>
      simp [selects, selectsCh, selectsPar1, selectsMaj, selectsPar2, selectsFinal, hb, ht]
  · intro h
    cases i with
    | roundCh | roundPar1 | roundMaj | roundPar2 | final =>
      simp only [selects, selectsCh, selectsPar1, selectsMaj, selectsPar2, selectsFinal, Bool.and_eq_true,
        decide_eq_true_eq] at h
      obtain ⟨hb, ht⟩ := h
      simp only [selectMicroOp, selectsCh, selectsPar1, selectsMaj, selectsPar2, selectsFinal, hb, Bool.true_and,
        decide_eq_true_eq]
      grind
    | _ => cases h

/-- A sequencer row runs where its condition holds. -/
theorem exec_eq_whenSelected {i : Instr} (hi : i.isTransaction = false) (s : State) :
    ∃ u, exec i s = whenSelected (selects i s) u := by
  cases i with
  | roundCh | roundPar1 | roundMaj | roundPar2 | final => exact ⟨_, rfl⟩
  | _ => cases hi

theorem whenSelected_eq_fault {sel : Bool} {t : State} :
    whenSelected sel t = .fault .microOpNotSelected ↔ sel = false := by
  cases sel <;> simp [whenSelected]

/-- Settles O39: a sequencer row is guarded by the condition that selects it. -/
theorem sequencerRowsStopWhereNotSelected : Obligations.SequencerRowsStopWhereNotSelected := by
  intro i s hi
  obtain ⟨u, hu⟩ := exec_eq_whenSelected hi s
  rw [hu, whenSelected_eq_fault, Ne, selectMicroOp_eq_some_iff, Bool.not_eq_true]

/-- Settles O3: the transaction rows by match and mask, then the sequencer rows by their conditions on (BUSY, T). -/
theorem opcodeMapSelectsByMatchAndMask : Obligations.OpcodeMapSelectsByMatchAndMask := by
  refine ⟨fun tw busy => ⟨?_, ?_, ?_, decodeWordWhile_wrmb_iff tw busy, decodeWordWhile_rdmb_iff tw busy,
    decodeWordWhile_rdh_iff tw busy, decodeWordWhile_rdstatus_iff tw busy, fun i => decodeWordWhile_isTransaction tw busy⟩,
    fun s => ⟨?_, ?_, ?_, ?_, ?_, fun i h => ?_⟩⟩
  · simpa using decodeWordWhile_command_iff tw busy (i := .nop) (code := 0#32) (m := 0x10000000000#41) rfl rfl
  · simpa using decodeWordWhile_command_iff tw busy (i := .init) (code := 1#32) (m := 0x10000000001#41) rfl rfl
  · simpa using decodeWordWhile_command_iff tw busy (i := .start) (code := 2#32) (m := 0x10000000002#41) rfl rfl
  · simp [selectMicroOp_eq_some_iff, selects, selectsCh]
  · simp [selectMicroOp_eq_some_iff, selects, selectsPar1]
  · simp [selectMicroOp_eq_some_iff, selects, selectsMaj]
  · simp [selectMicroOp_eq_some_iff, selects, selectsPar2]
  · simp [selectMicroOp_eq_some_iff, selects, selectsFinal]
  · rw [selectMicroOp_eq_some_iff] at h
    cases i with
    | roundCh | roundPar1 | roundMaj | roundPar2 | final => rfl
    | _ => cases h

/-! ### Words written out, placed words, and `wait` -/

/-- Settles O6: the words but the last two are the encodings of their operations. -/
theorem wordsOfEachFormatDecode : Obligations.WordsOfEachFormatDecode :=
  ⟨decodeWord_of_encode rfl, decodeWord_of_encode rfl, decodeWord_of_encode rfl, decodeWord_of_encode rfl,
    decodeWord_of_encode rfl, by decide, by decide⟩

theorem decodeTableWord_eq_some {nbits w : Nat} {i : Instr} (h : decodeTableWord nbits w = some i) :
    decodeAccess (accessOfBits nbits w) = .op i := by
  unfold decodeTableWord at h
  split at h
  · cases h
    assumption
  · cases h

/-- Settles O14: the placed access is the next move, and it moves by what its word decodes to. -/
theorem fetchedWordIsTheNextStep : Obligations.FetchedWordIsTheNextStep := fun s _ _ _ h =>
  (step_placeAccess _ s).trans (transact_of_op (decodeTableWord_eq_some h) s)

/-- Settles O17: the poll replies the status word and stays in the program while BUSY = 1. -/
theorem waitPollsUntilIdle : Obligations.WaitPollsUntilIdle := by
  intro s rest hn hp
  exact ⟨_, (step_host hn hp).trans (hostMove_wait _), by simp [SameRegisters], by simp [statusWord], by simp⟩

end Sys2Proof.Machine

/-! PROOFS. The statements of 40_operators.md: the rotates, the five-operand sum and its adder trees, and the round functions. -/

namespace Sys2Proof.Machine

/-! ### Rotates (R90) -/

/-- R90: bit `i` of `x` is bit `(i + n) mod 32` of the rotated word, for every amount. -/
theorem getLsbD_rotl (n : Nat) (x : Word) {i : Nat} (hi : i < 32) : (rotl n x).getLsbD ((i + n) % 32) = x.getLsbD i := by
  rw [rotl, BitVec.getLsbD_rotateLeft]
  by_cases hwrap : (i + n) % 32 < n % 32
  · have hsource : 32 - n % 32 + (i + n) % 32 = i := by omega
    simp [hwrap, hsource]
  · have hsource : (i + n) % 32 - n % 32 = i := by omega
    simp [hwrap, hsource, Nat.mod_lt]

/-- The rotated word is the only word with those bits: each of the 32 positions is `(i + n) mod 32` for one `i`. -/
theorem rotl_eq_iff {n : Nat} {x y : Word} :
    rotl n x = y ↔ ∀ i < 32, y.getLsbD ((i + n) % 32) = x.getLsbD i := by
  constructor
  · rintro rfl i hi
    exact getLsbD_rotl n x hi
  · intro hy
    refine BitVec.eq_of_getLsbD_eq fun j hj => ?_
    obtain ⟨i, hi, rfl⟩ : ∃ i < 32, (i + n) % 32 = j := ⟨(j + (32 - n % 32)) % 32, by omega, by omega⟩
    rw [getLsbD_rotl n x hi, hy i hi]

/-- Two rotations are one, by the sum of the amounts. -/
theorem rotl_rotl (n m : Nat) (x : Word) : rotl n (rotl m x) = rotl (n + m) x := by
  refine rotl_eq_iff.2 fun i hi => ?_
  obtain ⟨j, hj, rfl⟩ : ∃ j < 32, (j + m) % 32 = i := ⟨(i + (32 - m % 32)) % 32, by omega, by omega⟩
  have hpos : ((j + m) % 32 + n) % 32 = (j + (n + m)) % 32 := by omega
  rw [hpos, getLsbD_rotl _ _ hj, getLsbD_rotl _ _ hj]

/-- A rotation by a multiple of 32 is no rotation. -/
theorem rotl_of_mod_eq_zero {n : Nat} (hn : n % 32 = 0) (x : Word) : rotl n x = x :=
  rotl_eq_iff.2 fun i hi => congrArg x.getLsbD (by omega)

theorem rotl_mod (n : Nat) (x : Word) : rotl (n % 32) x = rotl n x := BitVec.rotateLeft_mod_eq_rotateLeft

/-- No bit is lost (R90): rotating on by the rest of 32 gives the word back. -/
theorem rotl_injective (n : Nat) : Function.Injective (rotl n) := by
  have hinv : Function.LeftInverse (rotl (32 - n % 32)) (rotl n) := fun x => by
    rw [rotl_rotl, rotl_of_mod_eq_zero (by omega)]
  exact hinv.injective

/-- R90, the arithmetic form: the two summands share no bit, since the first is a multiple of `2^n` and the second is below
it. -/
theorem toNat_rotl {n : Nat} (x : Word) (hn : n < 32) :
    (rotl n x).toNat = (x.toNat * 2 ^ n) % 2 ^ 32 + x.toNat / 2 ^ (32 - n) := by
  have hsplit : 2 ^ 32 = 2 ^ (32 - n) * 2 ^ n := by rw [← Nat.pow_add, Nat.sub_add_cancel hn.le]
  have hhigh : (x.toNat * 2 ^ n) % 2 ^ 32 = (x.toNat % 2 ^ (32 - n)) <<< n := by
    rw [hsplit, Nat.mul_mod_mul_right, Nat.shiftLeft_eq]
  have hlow : x.toNat / 2 ^ (32 - n) < 2 ^ n := Nat.div_lt_of_lt_mul (hsplit ▸ x.isLt)
  rw [rotl, BitVec.toNat_rotateLeft, Nat.mod_eq_of_lt hn, Nat.shiftLeft_eq, Nat.shiftRight_eq_div_pow, hhigh,
    Nat.shiftLeft_add_eq_or_of_lt hlow]

/-- Settles O32, from the bits of the rotated word and the composition of two rotations. -/
theorem rotateLeftIsThePermutationOfBits : Obligations.RotateLeftIsThePermutationOfBits := by
  intro n x _ hn
  refine ⟨fun i hi => getLsbD_rotl n x hi, toNat_rotl x hn, fun m _ _ => ?_, fun y hxy => rotl_injective n hxy,
    rotl_eq_iff.2 fun i _ => by simp, rotl_eq_iff.2 fun i hi => ?_⟩
  · rw [rotl_rotl]
    split
    case isTrue h => exact rotl_of_mod_eq_zero h x
    case isFalse => exact (rotl_mod (n + m) x).symm
  · have hones : 0xFFFFFFFF#32 = BitVec.allOnes 32 := rfl
    rw [hones, BitVec.getLsbD_allOnes, BitVec.getLsbD_allOnes]
    simp [hi, Nat.mod_lt]

/-! ### The five-operand sum (R94, R95) -/

theorem toNat_add5 (v1 v2 v3 v4 v5 : Word) :
    (add5 v1 v2 v3 v4 v5).toNat = (v1.toNat + v2.toNat + v3.toNat + v4.toNat + v5.toNat) % 2 ^ 32 :=
  BitVec.toNat_ofNat ..

/-- Associativity: an adder tree computes the sum of its operands, whatever its bracketing. -/
theorem AddTree.value_eq_sum (tr : AddTree) : tr.value = tr.operands.sum := by
  induction tr with
  | leaf v => simp [AddTree.value, AddTree.operands]
  | node l r ihl ihr => rw [AddTree.value, AddTree.operands, List.sum_append, ihl, ihr]

theorem add5_eq_sum (v1 v2 v3 v4 v5 : Word) : add5 v1 v2 v3 v4 v5 = [v1, v2, v3, v4, v5].sum := by
  simp [add5_eq_chain, add_assoc]

/-- Settles O33: the bracketing goes by the tree's sum, the ordering by the sum of a permuted list. -/
theorem adderTreeShapeDoesNotMatter : Obligations.AdderTreeShapeDoesNotMatter := by
  intro v1 v2 v3 v4 v5
  refine ⟨toNat_add5 v1 v2 v3 v4 v5, fun tr hperm => ?_⟩
  calc tr.value = tr.operands.sum := tr.value_eq_sum
    _ = [v1, v2, v3, v4, v5].sum := hperm.sum_eq
    _ = add5 v1 v2 v3 v4 v5 := (add5_eq_sum v1 v2 v3 v4 v5).symm

/-! ### The stage of a round index (R97) -/

theorem stageOf_ch {t : Nat} (h : t < 20) : stageOf t = .ch := if_pos h

theorem stageOf_par1 {t : Nat} (hlo : 20 ≤ t) (hhi : t < 40) : stageOf t = .par1 := by
  simp [stageOf, hlo.not_gt, hhi]

theorem stageOf_maj {t : Nat} (hlo : 40 ≤ t) (hhi : t < 60) : stageOf t = .maj := by
  simp [stageOf, hlo.not_gt, hhi, show ¬ t < 20 by omega]

theorem stageOf_par2 {t : Nat} (hlo : 60 ≤ t) : stageOf t = .par2 := by
  simp [stageOf, hlo.not_gt, show ¬ t < 20 by omega, show ¬ t < 40 by omega]

/-! ### The eight-row truth tables (R98) -/

theorem select_eq_xor_of_ands : ∀ p q r : Bool, (if p then q else r) = (p && q ^^ !p && r) := by decide

theorem select_eq_xor_masked : ∀ p q r : Bool, (if p then q else r) = (r ^^ p && (q ^^ r)) := by decide

theorem parity_eq_decide_odd : ∀ p q r : Bool,
    (p ^^ q ^^ r) = decide (p.toNat + q.toNat + r.toNat = 1 ∨ p.toNat + q.toNat + r.toNat = 3) := by decide

theorem majority_eq_decide_two_le : ∀ p q r : Bool,
    (p && q || p && r || q && r) = decide (2 ≤ p.toNat + q.toNat + r.toNat) := by decide

theorem majority_eq_factored : ∀ p q r : Bool, (p && q || p && r || q && r) = (p && q || r && (p || q)) := by decide

theorem majority_eq_xor : ∀ p q r : Bool, (p && q || p && r || q && r) = (p && q ^^ p && r ^^ q && r) := by decide

/-! ### The round functions, bit by bit (R98) -/

section
variable (b c d : Word) {i : Nat}

/-- CH: a bit of `b` chooses between those of `c` and `d`. -/
theorem getLsbD_roundFn_ch (hi : i < 32) :
    (roundFn .ch b c d).getLsbD i = if b.getLsbD i then c.getLsbD i else d.getLsbD i := by
  simp only [roundFn, BitVec.getLsbD_or, BitVec.getLsbD_and, BitVec.getLsbD_not, hi, decide_true, Bool.true_and]
  cases b.getLsbD i <;> simp

theorem getLsbD_roundFn_par1 :
    (roundFn .par1 b c d).getLsbD i = (b.getLsbD i ^^ c.getLsbD i ^^ d.getLsbD i) := by
  simp only [roundFn, BitVec.getLsbD_xor]

theorem getLsbD_roundFn_maj :
    (roundFn .maj b c d).getLsbD i =
      (b.getLsbD i && c.getLsbD i || b.getLsbD i && d.getLsbD i || c.getLsbD i && d.getLsbD i) := by
  simp only [roundFn, BitVec.getLsbD_or, BitVec.getLsbD_and]

/-- The two terms of CH are never both 1 in a bit position. -/
theorem ch_terms_disjoint : (b &&& c) &&& (~~~b &&& d) = 0#32 := by
  ext j hj
  cases hb : b[j] <;> simp [hb]

/-! ### Equal forms of CH and MAJ (R98) -/

theorem roundFn_ch_eq_add : roundFn .ch b c d = (b &&& c) + (~~~b &&& d) :=
  (BitVec.add_eq_or_of_and_eq_zero _ _ (ch_terms_disjoint b c d)).symm

theorem roundFn_ch_eq_xor : roundFn .ch b c d = (b &&& c) ^^^ (~~~b &&& d) := by
  refine BitVec.eq_of_getLsbD_eq fun j hj => ?_
  rw [getLsbD_roundFn_ch b c d hj, select_eq_xor_of_ands]
  simp only [BitVec.getLsbD_xor, BitVec.getLsbD_and, BitVec.getLsbD_not, hj, decide_true, Bool.true_and]

theorem roundFn_ch_eq_mux : roundFn .ch b c d = d ^^^ (b &&& (c ^^^ d)) := by
  refine BitVec.eq_of_getLsbD_eq fun j hj => ?_
  rw [getLsbD_roundFn_ch b c d hj, select_eq_xor_masked]
  simp only [BitVec.getLsbD_xor, BitVec.getLsbD_and]

theorem roundFn_maj_eq_factored : roundFn .maj b c d = (b &&& c) ||| (d &&& (b ||| c)) := by
  refine BitVec.eq_of_getLsbD_eq fun j _ => ?_
  rw [getLsbD_roundFn_maj, majority_eq_factored]
  simp only [BitVec.getLsbD_or, BitVec.getLsbD_and]

theorem roundFn_maj_eq_xor : roundFn .maj b c d = (b &&& c) ^^^ (b &&& d) ^^^ (c &&& d) := by
  refine BitVec.eq_of_getLsbD_eq fun j _ => ?_
  rw [getLsbD_roundFn_maj, majority_eq_xor]
  simp only [BitVec.getLsbD_xor, BitVec.getLsbD_and]

end

/-- Settles O34: the selection by the stage of the round index, the bits by the truth tables, then the equal forms. -/
theorem roundFunctionsAndConstantsByIndex : Obligations.RoundFunctionsAndConstantsByIndex := by
  refine ⟨fun t b c d => ⟨fun h => ?_, fun hlo hhi => ?_, fun hlo hhi => ?_, fun hlo _ => ?_⟩,
    fun b c d i hi => ⟨getLsbD_roundFn_ch b c d hi, ?_, ?_⟩,
    fun b c d => ⟨roundFn_ch_eq_xor b c d, roundFn_ch_eq_add b c d, roundFn_ch_eq_mux b c d,
      roundFn_maj_eq_factored b c d, roundFn_maj_eq_xor b c d⟩⟩
  · rw [stageOf_ch h]; exact ⟨rfl, rfl⟩
  · rw [stageOf_par1 hlo hhi]; exact ⟨rfl, rfl⟩
  · rw [stageOf_maj hlo hhi]; exact ⟨rfl, rfl⟩
  · rw [stageOf_par2 hlo]; exact ⟨rfl, rfl⟩
  · rw [getLsbD_roundFn_par1, parity_eq_decide_odd]
  · rw [getLsbD_roundFn_maj, majority_eq_decide_two_le]

end Sys2Proof.Machine

/-! PROOFS. The statements of 41_padding_parse.md: the shape, the length and the domain of Pad, and the words Parse reads. -/

namespace Sys2Proof.Machine

/-! ### Big-endian values (R50, R51, R52) -/

/-- The number the bytes `bs` write after a number `n`, most significant byte first. -/
def valueFrom (n : Nat) (bs : List Byte) : Nat := bs.foldl (fun n b => n * 256 + b.toNat) n

theorem valueFrom_append (n : Nat) (bs cs : List Byte) : valueFrom n (bs ++ cs) = valueFrom (valueFrom n bs) cs :=
  List.foldl_append

/-- The four bytes of a word write the word. -/
theorem valueFrom_wordBytes (n : Nat) (w : Word) : valueFrom n (wordBytes w) = n * 2 ^ 32 + w.toNat := by
  simp only [valueFrom, wordBytes, List.foldl_cons, List.foldl_nil, BitVec.extractLsb'_toNat, Nat.shiftRight_eq_div_pow]
  omega

/-- The length field holds any number of 64 bits: its two words are the quotient and the remainder by `2^32`. -/
theorem valueFrom_len64 {n : Nat} (hn : n < 2 ^ 64) : valueFrom 0 (len64 n) = n := by
  rw [len64, valueFrom_append, valueFrom_wordBytes, valueFrom_wordBytes, BitVec.toNat_ofNat, BitVec.toNat_ofNat]
  omega

theorem toNat_append_byte {w : Nat} (x : BitVec w) (b : Byte) : (x ++ b).toNat = x.toNat * 2 ^ 8 + b.toNat := by
  rw [BitVec.toNat_append, ← Nat.shiftLeft_add_eq_or_of_lt b.isLt, Nat.shiftLeft_eq]

theorem toNat_be32 (b0 b1 b2 b3 : Byte) :
    (be32 b0 b1 b2 b3).toNat = b0.toNat * 2 ^ 24 + b1.toNat * 2 ^ 16 + b2.toNat * 2 ^ 8 + b3.toNat := by
  simp only [be32, toNat_append_byte]
  omega

/-! ### The parts of Pad(m) and its length (R110, R112, R113) -/

theorem pad_eq_none_iff {m : List Byte} : pad m = none ↔ 2 ^ 61 ≤ m.length := by
  simp [pad, messageBound]

section
variable {m p : List Byte} (h : pad m = some p)
include h

theorem length_pad : p.length = m.length + 1 + padZeros m.length + 8 := by
  obtain ⟨-, rfl⟩ := pad_eq_some.1 h
  simp only [List.length_append, List.length_cons, List.length_replicate, len64_length]
  omega

theorem take_pad : p.take m.length = m := by
  obtain ⟨-, rfl⟩ := pad_eq_some.1 h
  simp

theorem getElem?_pad_marker : p[m.length]? = some 0x80#8 := by
  obtain ⟨-, rfl⟩ := pad_eq_some.1 h
  simp

theorem getElem?_pad_zero {j : Nat} (hlo : m.length < j) (hhi : j + 8 < p.length) : p[j]? = some 0x00#8 := by
  have hlen := length_pad h
  obtain ⟨-, rfl⟩ := pad_eq_some.1 h
  obtain ⟨i, rfl⟩ : ∃ i, j = m.length + (i + 1) := ⟨j - m.length - 1, by omega⟩
  have hi : i < padZeros m.length := by omega
  simp [List.getElem?_append, hi]

theorem drop_pad : p.drop (p.length - 8) = len64 (8 * m.length) := by
  obtain ⟨-, rfl⟩ := pad_eq_some.1 h
  exact List.drop_left' (by simp only [List.length_append, len64_length, Nat.add_sub_cancel])

/-- The length field gives the length of the message back. -/
theorem valueFrom_drop_pad : valueFrom 0 (p.drop (p.length - 8)) = 8 * m.length := by
  have hdomain : m.length < 2 ^ 61 := (pad_eq_some.1 h).1
  rw [drop_pad h, valueFrom_len64 (by omega)]

/-- R112: the message, the marker and the length field, rounded up to whole blocks. -/
theorem length_pad_eq_blocks : p.length = 64 * ((m.length + 8) / 64 + 1) := by
  have hlen := length_pad h
  obtain ⟨hlt, hmod⟩ := padZeros_spec m.length
  omega

end

/-- Pad is injective (R113): the length field says how much of the padded message is the message. -/
theorem pad_injective {m m' p : List Byte} (h : pad m = some p) (h' : pad m' = some p) : m = m' := by
  have hfield : 8 * m.length = 8 * m'.length := (valueFrom_drop_pad h).symm.trans (valueFrom_drop_pad h')
  have hlen : m.length = m'.length := by omega
  rw [← take_pad h, hlen, take_pad h']

/-- Settles O44: the parts of Pad(m) one by one, then injectivity by the length field. -/
theorem paddedMessageHasItsShape : Obligations.PaddedMessageHasItsShape := by
  refine ⟨fun m p h => ?_, fun m m' p => pad_injective⟩
  have hblocks := length_pad_eq_blocks h
  exact ⟨by omega, by omega, take_pad h, getElem?_pad_marker h, fun j => getElem?_pad_zero h, valueFrom_drop_pad h⟩

/-! ### Parse (R115) -/

theorem parse_eq_some_of_length {p : List Byte} {n : Nat} (hn : 0 < n) (hp : p.length = 64 * n) :
    parse p = some ((List.range n).map (blockAt p)) := by
  have hdomain : p.length % 64 = 0 ∧ p.length ≠ 0 := by omega
  have hblocks : p.length / 64 = n := by omega
  rw [parse, if_pos hdomain, hblocks]

/-- Parse answers on every padded message. -/
theorem messageBlocks_of_pad {m p : List Byte} (h : pad m = some p) :
    messageBlocks m = some ((List.range ((m.length + 8) / 64 + 1)).map (blockAt p)) := by
  rw [messageBlocks, h, Option.bind_some, parse_eq_some_of_length (Nat.succ_pos _) (length_pad_eq_blocks h)]

/-- A digest is missing only where Pad gives nothing (R111). -/
theorem digest_eq_none_iff {m : List Byte} : digest m = none ↔ pad m = none := by
  cases h : pad m with
  | none => simp [digest, messageBlocks, h]
  | some p => simp [digest, messageBlocks_of_pad h]

/-- Settles O45: the domain of Pad is that of digest, and the number of blocks fixes the zero bytes in both cases of the spill. -/
theorem paddingSpillsIntoASecondBlock : Obligations.PaddingSpillsIntoASecondBlock := by
  refine ⟨fun m => ⟨pad_eq_none_iff, digest_eq_none_iff.trans pad_eq_none_iff⟩, fun m p h => ?_⟩
  have hblocks := length_pad_eq_blocks h
  exact ⟨hblocks, fun hfits => by omega, fun hspills => by omega⟩

theorem getElem_blockAt (p : List Byte) (k : Nat) (i : Fin 16) :
    (blockAt p k)[i] = be32 (p.getD (64 * k + 4 * i) 0#8) (p.getD (64 * k + 4 * i + 1) 0#8)
      (p.getD (64 * k + 4 * i + 2) 0#8) (p.getD (64 * k + 4 * i + 3) 0#8) := by
  simp [blockAt]

/-- Settles O46: block `k` is `blockAt p k`, whose four bytes of word `i` all stand inside `p`. -/
theorem parsedWordsAreBigEndian : Obligations.ParsedWordsAreBigEndian := by
  intro p n hn hp
  refine ⟨_, parse_eq_some_of_length hn hp, by simp, fun k M hM i => ?_⟩
  obtain ⟨hk, rfl⟩ := List.getElem?_eq_some_iff.1 hM
  rw [List.length_map, List.length_range] at hk
  have hbyte (b : Nat) (hb : b < 4) : p[64 * k + 4 * i.val + b]? = some (p.getD (64 * k + 4 * i.val + b) 0#8) := by
    rw [List.getD_eq_getElem _ _ (by omega), List.getElem?_eq_getElem]
  exact ⟨_, _, _, _, hbyte 0 (by omega), hbyte 1 (by omega), hbyte 2 (by omega), hbyte 3 (by omega),
    by rw [List.getElem_map, List.getElem_range, getElem_blockAt, toNat_be32]; rfl⟩

end Sys2Proof.Machine

/-! PROOFS. The statements of 42_commands.md: the transaction decoded against BUSY, the commands, the register accesses and the
values of STATUS. -/

namespace Sys2Proof

/-- An access with a transaction word decodes as its word (R70). -/
theorem decodeAccess_of_word {a : Access} {tw : TransactionWord} (h : a.word? = some tw) : decodeAccess a = decodeWord tw := by
  simp [decodeAccess, h]

/-- A rejection comes from the word's fields, or from BUSY = 1 at an INIT or START (R75). -/
theorem decodeWhile_eq_reject {k : Kind} {off : BitVec 8} {data : Word} {busy : Bool} {c : ErrorCode}
    (h : decodeWhile k off data busy = .reject c) :
    decodeFields k off data = .reject c ∨
      busy = true ∧ c = .cmdWhileBusy ∧ ∃ i, (i = .init ∨ i = .start) ∧ decodeFields k off data = .op i := by
  cases hf : decodeFields k off data with
  | reject d =>
    rw [decodeWhile_of_reject hf] at h
    exact .inl h
  | op i =>
    by_cases hi : i = .init ∨ i = .start
    · rw [decodeWhile_command hf hi] at h
      cases busy with
      | false => cases h
      | true =>
        cases h
        exact .inr ⟨rfl, rfl, i, hi, rfl⟩
    · rw [decodeWhile_of_op hf hi] at h
      cases h

/-- INIT and START are writes (R73). -/
theorem kind_of_decodeAccess_command {a : Access} {i : Instr} (h : decodeAccess a = .op i) (hi : i = .init ∨ i = .start) :
    a.kind = .write := by
  cases hk : a.kind with
  | write => rfl
  | read =>
    have hread := Machine.decodeAccess_read hk h
    rcases hi with rfl | rfl <;> simp at hread

end Sys2Proof

namespace Sys2Proof.Machine

/-! ### The commands against BUSY -/

/-- While BUSY = 1, INIT and START are rejected with CMD_WHILE_BUSY (R121, R122, R182). -/
theorem exec_command_of_busy {i : Instr} (hi : i = .init ∨ i = .start) {s : State} (hb : s.busy = true) :
    exec i s = .next (rejectWith .write .cmdWhileBusy s) := by
  rcases hi with rfl | rfl
  · exact if_pos hb
  · exact if_pos hb

theorem exec_init_of_idle {s : State} (hb : s.busy = false) : exec .init s = .next (loadIv s) := if_neg (by simp [hb])

theorem exec_start_of_idle {s : State} (hb : s.busy = false) : exec .start s = .next (loadBlock s) := if_neg (by simp [hb])

/-- Settles O5: BUSY only turns an INIT or START into a rejection, which is what their meanings do while BUSY = 1. -/
theorem transactionIsDecodedAgainstBusy : Obligations.TransactionIsDecodedAgainstBusy := by
  intro a tw s hw
  have hword := decodeAccess_of_word hw
  refine ⟨fun i hop => ?_, fun k hrej => ?_⟩
  · obtain ⟨hfields, -⟩ := decodeWhile_eq_op_iff.1 hop
    exact transact_of_op (hword.trans hfields) s
  · have hspec := rejectWith_spec a.kind k s
    rcases decodeWhile_eq_reject hrej with hfields | ⟨hb, rfl, i, hi, hfields⟩
    · exact ⟨_, transact_of_reject (hword.trans hfields) s, hspec⟩
    · have hd : decodeAccess a = .op i := hword.trans hfields
      rw [kind_of_decodeAccess_command hd hi] at hspec ⊢
      exact ⟨_, (transact_of_op hd s).trans (exec_command_of_busy hi hb), hspec⟩

/-- Settles O28: while idle each command is its update of the registers, while busy both are the one rejection. -/
theorem commandsHaveExactlyTheirEffect : Obligations.CommandsHaveExactlyTheirEffect := fun s =>
  ⟨rfl, exec_init_of_idle, exec_start_of_idle, fun hb =>
    ⟨_, exec_command_of_busy (.inl rfl) hb, exec_command_of_busy (.inr rfl) hb, rejectWith_spec .write .cmdWhileBusy s⟩⟩

/-! ### The register accesses -/

/-- The written word is read back, every other word is kept (R123). -/
theorem getElem_writeBlock (idx : BitVec 4) (v : Word) (s : State) (i : Fin 16) :
    (writeBlock idx v s).mb[i] = if i.val = idx.toNat then v else s.mb[i] := by
  simp [Vector.getElem_set, eq_comm]

/-- Settles O29: WRMB is `writeBlock`, which updates MB alone. -/
theorem wrmbWritesOneWordOfTheBuffer : Obligations.WrmbWritesOneWordOfTheBuffer := fun idx v s =>
  ⟨_, rfl, getElem_writeBlock idx v s, rfl⟩

/-- RDH of an index without a register is BAD_ADDR (R127). -/
theorem execRdh_of_ge {idx : BitVec 3} (h : 5 ≤ idx.toNat) (s : State) :
    execRdh idx s = .next (rejectWith .read .badAddr s) := dif_neg (by omega)

theorem statusWord_eq_ofNat (s : State) :
    statusWord s = BitVec.ofNat 32 (s.busy.toNat + 2 * s.done.toNat + 4 * s.err.toNat + 16 * s.errcode.toNat) := by
  rw [← statusWord_toNat, BitVec.ofNat_toNat, BitVec.setWidth_eq]

/-- Settles O30, one access per clause. -/
theorem registerReadsReturnAndChangeNothing : Obligations.RegisterReadsReturnAndChangeNothing := by
  intro s
  refine ⟨fun idx => rfl, fun idx => ?_, fun idx h => ⟨_, execRdh_of_ge h s, rejectWith_spec .read .badAddr s⟩, ?_⟩
  · have hidx : (BitVec.ofNat 3 idx.val).toNat = idx.val := by
      simp
      omega
    have hread : exec (.rdh (BitVec.ofNat 3 idx.val)) s = _ := execRdh_of_le (by omega) s
    simpa [hidx, reply] using hread
  · rw [← statusWord_eq_ofNat]
    rfl

/-! ### The values of STATUS -/

/-- STATUS is the state of the engine plus the error record: the two do not overlap (R29). -/
theorem statusWord_eq_add (s : State) :
    statusWord s =
      BitVec.ofNat 32 (s.busy.toNat + 2 * s.done.toNat) + BitVec.ofNat 32 (4 * s.err.toNat + 16 * s.errcode.toNat) := by
  rw [statusWord_eq_ofNat, Nat.add_assoc, BitVec.ofNat_add]

/-- Idle, busy or done: BUSY excludes DONE (R31 (iii)). -/
theorem Inv.engine_status {s : State} (hi : Inv s) :
    s.busy.toNat + 2 * s.done.toNat = 0 ∨ s.busy.toNat + 2 * s.done.toNat = 1 ∨ s.busy.toNat + 2 * s.done.toNat = 2 := by
  cases hb : s.busy with
  | true => simp [hi.busy_done hb]
  | false => cases s.done <;> simp

/-- Settles O25: without an error the record is 0 (R31 (iv)), with one its code is 1 to 4. -/
theorem statusValuesAreTheListedOnes : Obligations.StatusValuesAreTheListedOnes := by
  intro s hi
  refine ⟨BitVec.ofNat 32 (s.busy.toNat + 2 * s.done.toNat), ?_, ?_⟩
  · rcases hi.engine_status with h | h | h <;> simp [h]
  · cases he : s.err with
    | false =>
      have hcode : s.errcode = 0#4 := hi.err_code.1 he
      exact .inl (by simp [statusWord_eq_add, he, hcode])
    | true =>
      have hcode : s.errcode ≠ 0#4 := fun h => by simp [hi.err_code.2 h] at he
      have hpos : s.errcode.toNat ≠ 0 := fun h => hcode (BitVec.eq_of_toNat_eq h)
      exact .inr ⟨s.errcode.toNat, by omega, hi.code_le, by simp [statusWord_eq_add, he]⟩

end Sys2Proof.Machine

/-! PROOFS. The statements of 43_schedule.md: the schedule as a recurrence, linear over XOR, and the window that holds its next
sixteen words throughout a compression. -/

namespace Sys2Proof.Machine

/-! ### The schedule, word by word (R140, R144) -/

/-- Word `n` of the schedule is the word the recurrence adds to the first `n`. -/
theorem schedule_eq (M : Block) (n : Nat) :
    schedule M n = if h : n < 16 then M[n] else
      scheduleMix ((schedulePrefix M n).getD (n - 3) 0#32) ((schedulePrefix M n).getD (n - 8) 0#32)
        ((schedulePrefix M n).getD (n - 14) 0#32) ((schedulePrefix M n).getD (n - 16) 0#32) := by
  simp [schedule, schedulePrefix, List.getD]

/-- The first sixteen words are the block. -/
theorem schedule_of_lt (M : Block) {t : Nat} (h : t < 16) : schedule M t = M[t] := by
  rw [schedule_eq, dif_pos h]

/-- Every later word comes from the words 3, 8, 14 and 16 places back. -/
theorem schedule_of_ge (M : Block) {t : Nat} (h : 16 ≤ t) :
    schedule M t =
      scheduleMix (schedule M (t - 3)) (schedule M (t - 8)) (schedule M (t - 14)) (schedule M (t - 16)) := by
  have hprefix (k : Nat) (hk : 0 < k) : (schedulePrefix M t).getD (t - k) 0#32 = schedule M (t - k) :=
    schedulePrefix_getD M (by omega)
  rw [schedule_eq, dif_neg (by omega), hprefix 3 (by omega), hprefix 8 (by omega), hprefix 14 (by omega),
    hprefix 16 (by omega)]

/-- The recurrence read forwards, as the window does. -/
theorem schedule_add_sixteen (M : Block) (t : Nat) :
    schedule M (t + 16) =
      scheduleMix (schedule M (t + 13)) (schedule M (t + 8)) (schedule M (t + 2)) (schedule M t) :=
  schedule_of_ge M (Nat.le_add_left 16 t)

/-! ### Linearity over XOR -/

theorem rotl_xor (n : Nat) (x y : Word) : rotl n (x ^^^ y) = rotl n x ^^^ rotl n y :=
  rotl_eq_iff.2 fun i hi => by simp only [BitVec.getLsbD_xor, getLsbD_rotl _ _ hi]

theorem scheduleMix_xor (a b c d a' b' c' d' : Word) :
    scheduleMix (a ^^^ a') (b ^^^ b') (c ^^^ c') (d ^^^ d') = scheduleMix a b c d ^^^ scheduleMix a' b' c' d' := by
  simp only [scheduleMix, rotl1, ← rotl_xor]
  ac_rfl

/-- The word-wise XOR of two blocks. -/
def xorBlocks (M M' : Block) : Block := Vector.ofFn fun i : Fin 16 => M[i] ^^^ M'[i]

theorem getElem_xorBlocks (M M' : Block) {i : Nat} (h : i < 16) : (xorBlocks M M')[i] = M[i] ^^^ M'[i] := by
  simp [xorBlocks]

theorem xorBlocks_self (M : Block) : xorBlocks M M = Vector.replicate 16 0#32 := by
  ext i hi
  simp [getElem_xorBlocks]

/-- The schedule is linear: by strong induction on the index, since the recurrence only rotates and XORs earlier words. -/
theorem schedule_xorBlocks (M M' : Block) (t : Nat) :
    schedule (xorBlocks M M') t = schedule M t ^^^ schedule M' t := by
  induction t using Nat.strong_induction_on with
  | _ t ih =>
    by_cases ht : t < 16
    · simp only [schedule_of_lt _ ht, getElem_xorBlocks]
    · have hge : 16 ≤ t := by omega
      rw [schedule_of_ge _ hge, schedule_of_ge M hge, schedule_of_ge M' hge, ih _ (by omega), ih _ (by omega),
        ih _ (by omega), ih _ (by omega), scheduleMix_xor]

/-- The all-zero block is any block XORed with itself, so its schedule is all zero. -/
theorem schedule_zero (t : Nat) : schedule (Vector.replicate 16 0#32) t = 0#32 := by
  rw [← xorBlocks_self (Vector.replicate 16 0#32), schedule_xorBlocks, BitVec.xor_self]

/-- Settles O35: the block, the recurrence, and linearity with the zero block as its special case. -/
theorem scheduleFollowsItsRecurrence : Obligations.ScheduleFollowsItsRecurrence := fun M =>
  ⟨fun i => schedule_of_lt M i.isLt, fun _ ht => schedule_of_ge M ht, schedule_zero, schedule_xorBlocks M⟩

/-! ### The window (R141, R142) -/

/-- Shifting a window that starts at word `n` makes the window that starts at word `n + 1`: its fresh word is the recurrence at
`n + 16`. -/
theorem shiftWindow_window {M ws : Block} {n : Nat} (hw : ∀ i : Fin 16, ws[i] = schedule M (n + i)) (i : Fin 16) :
    (shiftWindow ws)[i] = schedule M (n + 1 + i) := by
  have hword (j : Nat) (hj : j < 16) : ws[j] = schedule M (n + j) := hw ⟨j, hj⟩
  obtain ⟨i, hi⟩ := i
  by_cases hlast : i = 15
  · subst hlast
    calc (shiftWindow ws)[15]
      _ = scheduleMix ws[13] ws[8] ws[2] ws[0] := shiftWindow_last ws
      _ = schedule M (n + 16) := by simp only [hword, schedule_add_sixteen, Nat.add_zero]
      _ = schedule M (n + 1 + 15) := by rw [Nat.add_assoc]
  · calc (shiftWindow ws)[i]
      _ = ws[i + 1] := shiftWindow_lt ws i (by omega)
      _ = schedule M (n + (i + 1)) := hword (i + 1) (by omega)
      _ = schedule M (n + 1 + i) := by rw [Nat.add_right_comm, Nat.add_assoc]

/-- The window invariant reads WS and T only. -/
theorem WindowHolds.congr {M : Block} {s u : State} (h : WindowHolds M s) (hws : u.ws = s.ws) (ht : u.t = s.t) :
    WindowHolds M u := by
  unfold WindowHolds
  rw [hws, ht]
  exact h

theorem WindowHolds.of_sameEngine {M : Block} {s u : State} (h : WindowHolds M s) (hsame : SameEngine s u) :
    WindowHolds M u := by
  obtain ⟨-, -, -, -, -, -, hws, ht, -, -⟩ := hsame
  exact h.congr hws.symm ht.symm

/-- START puts the block into the window, at T = 0. -/
theorem WindowHolds.loadBlock (s : State) : WindowHolds s.mb (loadBlock s) := fun i => by
  simp [schedule_of_lt s.mb i.isLt]

/-- A round shifts the window as it counts T up. -/
theorem WindowHolds.roundUpdate {M : Block} {s : State} (g : Stage) (h : WindowHolds M s) (ht : s.t.toNat < 80) :
    WindowHolds M (roundUpdate g s) := fun i => by
  rw [roundUpdate_ws, roundUpdate_t, toNat_succ_of_lt ht]
  exact shiftWindow_window h i

/-- Every step of a compression that leaves it in progress keeps the window: a round shifts it, FINAL and Reset end the
compression, and no other step touches WS or T. -/
theorem WindowHolds.step {M : Block} {s u : State} (h : WindowHolds M s) (hb : s.busy = true) (hs : step s = .next u)
    (hu : u.busy = true) : WindowHolds M u := by
  cases stepEffect_of_step hs with
  | idle => exact h
  | round hn _ ht => exact (h.of_sameEngine (sameEngine_useTurn s)).roundUpdate _ (by simpa using ht)
  | wrmb => exact (h.of_sameEngine (.moveTaken s)).congr rfl rfl
  | records hn hr hrec =>
    obtain ⟨hsame, -⟩ := frame_of_records hrec
    exact h.of_sameEngine hsame
  | init _ hidle | start _ hidle => simp [hb] at hidle
  | reset | final => simp [State.reset] at hu

/-- Settles O40: START establishes the window, every kind of step keeps it, and its first word is W[T]. -/
theorem everyStepKeepsTheScheduleWindow : Obligations.EveryStepKeepsTheScheduleWindow := by
  refine ⟨fun s u hb hstart => ?_, fun M s u hb h hs hu => h.step hb hs hu, fun M s h => h 0⟩
  cases (exec_start_of_idle hb).symm.trans hstart
  exact .loadBlock s

end Sys2Proof.Machine

/-! PROOFS. The statements of 44_compress.md: a step always answers, ROUND and FINAL register by register, the round as an iteration
of the source, and the compression from START to its 81st engine step under every interleaving. -/

namespace Sys2Proof.Machine

/-! ### ROUND and FINAL (R150, R151, R156) -/

/-- The assignments of a round are those of R150, with the function and the constant of its stage. -/
theorem roundEffect_roundUpdate (g : Stage) {s : State} (ht : s.t.toNat < 80) :
    RoundEffect (roundFn g s.b s.c s.d) (roundK g) s (roundUpdate g s) where
  a := add5_eq_chain ..
  b := rfl
  c := rfl
  d := rfl
  e := rfl
  shifted := shiftWindow_lt s.ws
  fresh := shiftWindow_last s.ws
  t := toNat_succ_of_lt ht
  frame := rfl

/-- Settles O36: each row is guarded by its own range of T and then is the round of its stage. -/
theorem roundRowsComputeOneRound : Obligations.RoundRowsComputeOneRound := by
  intro s hb
  refine ⟨fun hhi => ?_, fun hlo hhi => ?_, fun hlo hhi => ?_, fun hlo hhi => ?_⟩
  · exact ⟨_, whenSelected_eq_next.2 ⟨by simp [selectsCh, hb, hhi], rfl⟩, roundEffect_roundUpdate .ch (by omega)⟩
  · exact ⟨_, whenSelected_eq_next.2 ⟨by simp [selectsPar1, hb, hlo, hhi], rfl⟩, roundEffect_roundUpdate .par1 (by omega)⟩
  · exact ⟨_, whenSelected_eq_next.2 ⟨by simp [selectsMaj, hb, hlo, hhi], rfl⟩, roundEffect_roundUpdate .maj (by omega)⟩
  · exact ⟨_, whenSelected_eq_next.2 ⟨by simp [selectsPar2, hb, hlo, hhi], rfl⟩, roundEffect_roundUpdate .par2 (by omega)⟩

/-- The working variables of R155, as the machine holds them. -/
def workingVars (s : State) : Vars := { a := s.a, b := s.b, c := s.c, d := s.d, e := s.e }

/-- A round is one iteration of the source: the order of the assignments is immaterial, and ADD5 is the source's chain of sums. -/
theorem workingVars_roundUpdate (t : Nat) (s : State) :
    workingVars (roundUpdate (stageOf t) s) = iterate t s.ws[0] (workingVars s) := by
  simp [workingVars, iterate, roundTemp, add5_eq_chain]

/-- Settles O37: the row selected at T < 80 is the round of T's stage. -/
theorem simultaneousRoundEqualsSequentialRound : Obligations.SimultaneousRoundEqualsSequentialRound := by
  intro s i hsel ht
  have hexec := exec_selected hsel (.refl s)
  rw [if_neg (by omega)] at hexec
  exact ⟨_, hexec, workingVars_roundUpdate _ s⟩

/-- Settles O38: FINAL is guarded by its own condition and then is `finalUpdate`. -/
theorem finalUpdatesTheHashState : Obligations.FinalUpdatesTheHashState := fun s hb ht =>
  whenSelected_eq_next.2 ⟨by simp [selectsFinal, hb, ht], rfl⟩

/-! ### Nothing blocks (R157, R188) -/

/-- Settles O16: a host move always answers, and so does the engine's step where it is the engine's turn. -/
theorem everyStepAnswersANextState : Obligations.EveryStepAnswersANextState := by
  intro s
  rcases step_cases s with ⟨-, hs⟩ | ⟨-, m, rest, -, hs⟩ | ⟨-, -, -, hs⟩ | ⟨-, -, -, hs⟩
  · exact ⟨_, hs⟩
  · obtain ⟨u, hu, -⟩ := hostMove_cases m { useTurn s with pending := rest }
    exact ⟨u, hs.trans hu⟩
  · exact ⟨_, hs⟩
  · exact ⟨_, hs⟩

/-- A move of the host during a compression that is no Reset changes no register of the engine. -/
theorem sameEngine_of_host_step {s u : State} (hb : s.busy = true) (ht : s.t.toNat ≤ 80) (hn : nextAgent s = some .host)
    (hr : ¬ resetsNext s) (hs : step s = .next u) : SameEngine s u := by
  obtain ⟨v, hv, hsame, -⟩ := step_host_while_busy hb ht hn hr
  cases hv.symm.trans hs
  exact hsame

/-- Settles O41: BUSY = 1 with T <= 80 selects a row, which then runs, and a host move other than Reset leaves the engine. -/
theorem hostCannotDisturbACompression : Obligations.HostCannotDisturbACompression := by
  intro s u hi hb
  refine ⟨?_, sameEngine_of_host_step hb hi.t_le⟩
  obtain ⟨i, hsel⟩ : ∃ i, selectMicroOp s = some i := Option.isSome_iff_exists.1 (engineReady_of_busy hb hi.t_le)
  obtain ⟨-, hrow⟩ := selectMicroOp_cases hsel
  refine ⟨i, hsel, ⟨_, exec_selected hsel (.refl s)⟩, ?_, fun h80 => by simpa [h80] using hrow⟩
  rintro hlt rfl
  have h80 : s.t.toNat = 80 := by simpa using hrow
  omega

/-! ### A compression in progress, step by step (R158) -/

/-- START begins the compression of MB onto H. -/
theorem Compressing.loadBlock (s : State) : Compressing s.h s.mb (loadBlock s) where
  busy := rfl
  not_done := rfl
  t_le := Nat.zero_le _
  hash := rfl
  window := .loadBlock s
  vars := rfl

/-- A compression in progress reads the engine's registers only. -/
theorem Compressing.of_sameEngine {hv : HashState} {M : Block} {s u : State} (h : Compressing hv M s) (hsame : SameEngine s u) :
    Compressing hv M u := by
  have hwindow := h.window.of_sameEngine hsame
  obtain ⟨hh, ha, hb, hc, hd, he, -, ht, hbusy, hdone⟩ := hsame
  exact {
    busy := hbusy ▸ h.busy
    not_done := hdone ▸ h.not_done
    t_le := ht ▸ h.t_le
    hash := hh ▸ h.hash
    window := hwindow
    vars := by rw [← ha, ← hb, ← hc, ← hd, ← he, ← ht, h.vars] }

/-- A round brings the working variables one iteration further: the word it consumes is W[T]. -/
theorem Compressing.roundUpdate {hv : HashState} {M : Block} {s : State} (h : Compressing hv M s) (ht : s.t.toNat < 80) :
    Compressing hv M (roundUpdate (stageOf s.t.toNat) s) := by
  have hsucc : (s.t + 1#7).toNat = s.t.toNat + 1 := toNat_succ_of_lt ht
  exact {
    busy := h.busy
    not_done := h.not_done
    t_le := by
      rw [roundUpdate_t, hsucc]
      omega
    hash := h.hash
    window := h.window.roundUpdate _ ht
    vars := by
      have hvars : workingVars s = varsAfter hv M s.t.toNat := h.vars
      have hword : s.ws[0] = schedule M s.t.toNat := h.window 0
      calc workingVars (Machine.roundUpdate (stageOf s.t.toNat) s)
        _ = iterate s.t.toNat s.ws[0] (workingVars s) := workingVars_roundUpdate _ s
        _ = varsAfter hv M (s.t.toNat + 1) := by rw [hvars, hword, varsAfter]
        _ = varsAfter hv M (s.t + 1#7).toNat := by rw [hsucc] }

/-- FINAL at T = 80 completes the compression: the lanes it adds are the variables after 80 iterations. -/
theorem Compressing.finalUpdate {hv : HashState} {M : Block} {s : State} (h : Compressing hv M s) (ht : s.t.toNat = 80) :
    Compressed hv M (finalUpdate s) := by
  have hvars := h.vars
  have hwindow := h.window
  simp only [WindowHolds, ht] at hvars hwindow
  exact {
    idle := rfl
    done := rfl
    t_zero := rfl
    hash := by simp [compress, rounds, ← hvars, h.hash]
    vars := hvars
    window := hwindow }

/-- A step of the engine leaves what is the host's: MB, the error record and the program. -/
theorem engine_step_frame {s u : State} (hn : nextAgent s = some .engine) (hs : step s = .next u) :
    u.mb = s.mb ∧ u.err = s.err ∧ u.errcode = s.errcode ∧ u.pending = s.pending := by
  rcases step_cases s with ⟨hn', -⟩ | ⟨hn', -⟩ | ⟨-, -, -, hstep⟩ | ⟨-, -, -, hstep⟩
  · simp [hn] at hn'
  · simp [hn] at hn'
  · cases hstep.symm.trans hs
    simp
  · cases hstep.symm.trans hs
    simp

/-- One step of a compression in progress, Reset apart: the host leaves it, a round at T < 80 carries it on, FINAL at T = 80
completes it. -/
theorem Compressing.step {hv : HashState} {M : Block} {s u : State} (h : Compressing hv M s) (hr : ¬ resetsNext s)
    (hs : step s = .next u) :
    (Compressing hv M u ∧
      (nextAgent s = some .host ∧ u.t = s.t ∨ nextAgent s = some .engine ∧ u.t.toNat = s.t.toNat + 1)) ∨
    (nextAgent s = some .engine ∧ s.t.toNat = 80 ∧ Compressed hv M u) := by
  have hturn : Compressing hv M (useTurn s) := h.of_sameEngine (sameEngine_useTurn s)
  have htturn : (useTurn s).t = s.t := by simp
  rcases step_cases s with ⟨hn, -⟩ | ⟨hn, -⟩ | ⟨hn, -, ht, hstep⟩ | ⟨hn, -, ht, hstep⟩
  · have hsome := nextAgent_of_busy h.busy h.t_le
    simp [hn] at hsome
  · have hsame := sameEngine_of_host_step h.busy h.t_le hn hr hs
    exact .inl ⟨h.of_sameEngine hsame, .inl ⟨hn, hsame.t_eq.symm⟩⟩
  · cases hstep.symm.trans hs
    refine .inl ⟨?_, .inr ⟨hn, by simp [toNat_succ_of_lt ht]⟩⟩
    simpa [htturn] using hturn.roundUpdate (by simpa using ht)
  · cases hstep.symm.trans hs
    exact .inr ⟨hn, ht, hturn.finalUpdate (by simpa using ht)⟩

/-- Settles O42: START begins a compression, and each step carries it on or, as the 81st of the engine, completes it. -/
theorem everyStepCarriesTheCompressionForward : Obligations.EveryStepCarriesTheCompressionForward := by
  refine ⟨fun s hb => ⟨_, exec_start_of_idle hb, .loadBlock s, rfl⟩, fun hv M s u h hr hs => ?_⟩
  rcases h.step hr hs with hgoes | ⟨hn, ht, hdone⟩
  · exact .inl hgoes
  · obtain ⟨hmb, herr, hcode, -⟩ := engine_step_frame hn hs
    exact .inr ⟨hn, ht, hdone, hmb, herr, hcode⟩

/-! ### Whole runs: the 81 steps of the engine (R158) -/

theorem not_resetsNext_of_not_mem {s : State} (h : HostMove.reset ∉ s.pending) : ¬ resetsNext s :=
  fun ⟨_, hhead⟩ => h (List.mem_of_head? hhead)

/-- A program without Reset stays one: a step makes a move, keeps the program or, at a `wait`, puts the `wait` back. -/
theorem reset_not_mem_of_step {s u : State} (h : HostMove.reset ∉ s.pending) (hs : step s = .next u) :
    HostMove.reset ∉ u.pending := by
  rcases step_cases s with ⟨-, hstep⟩ | ⟨-, m, rest, hp, hstep⟩ | ⟨hn, -⟩ | ⟨hn, -⟩
  · cases hstep.symm.trans hs
    exact h
  · have hrest : HostMove.reset ∉ rest := fun hmem => h (hp ▸ List.mem_cons_of_mem m hmem)
    rcases hostMove_pending (hstep.symm.trans hs) with hu | ⟨-, -, hu⟩
    · exact hu ▸ hrest
    · simpa [hu] using hrest
  · obtain ⟨-, -, -, hp⟩ := engine_step_frame hn hs
    exact hp ▸ h
  · obtain ⟨-, -, -, hp⟩ := engine_step_frame hn hs
    exact hp ▸ h

theorem engineStepsIn_succ {s v : State} (k : Nat) (h : step s = .next v) :
    engineStepsIn (k + 1) s = (if nextAgent s = some .engine then 1 else 0) + engineStepsIn k v := by
  simp only [engineStepsIn, h]

/-- As long as the engine has not stepped beyond T = 80, a run without Reset leaves the compression in progress, and T has counted
the engine's steps. -/
theorem Compressing.run {hv : HashState} {M : Block} {s v : State} {k : Nat} (h : Compressing hv M s)
    (hp : HostMove.reset ∉ s.pending) (hrun : Sys2Proof.core.run k s = .next v) (hk : s.t.toNat + engineStepsIn k s ≤ 80) :
    Compressing hv M v ∧ v.t.toNat = s.t.toNat + engineStepsIn k s ∧ HostMove.reset ∉ v.pending := by
  induction k generalizing s with
  | zero =>
    cases hrun
    exact ⟨h, rfl, hp⟩
  | succ k ih =>
    obtain ⟨u, hs, hrest⟩ := step_of_run_succ hrun
    have hpu := reset_not_mem_of_step hp hs
    rw [engineStepsIn_succ k hs] at hk ⊢
    rcases h.step (not_resetsNext_of_not_mem hp) hs with ⟨hu, ⟨hn, ht⟩ | ⟨hn, ht⟩⟩ | ⟨hn, ht, -⟩
    · simpa [hn, ht] using ih hu hpu hrest (by simpa [hn, ht] using hk)
    · simp only [hn, if_true, ← Nat.add_assoc, ← ht] at hk ⊢
      exact ih hu hpu hrest hk
    · rw [if_pos hn] at hk
      omega

/-- At T = 80 the engine's step completes the compression. -/
theorem Compressing.last_step {hv : HashState} {M : Block} {s u : State} (h : Compressing hv M s) (ht : s.t.toNat = 80)
    (hn : nextAgent s = some .engine) (hr : ¬ resetsNext s) (hs : Machine.step s = .next u) : Compressed hv M u := by
  rcases h.step hr hs with ⟨hu, ⟨hhost, -⟩ | ⟨-, hsucc⟩⟩ | ⟨-, -, hdone⟩
  · simp [hn] at hhost
  · have hle := hu.t_le
    omega
  · exact hdone

/-- Where the host has no move left, the engine's remaining steps are the next ones, and they leave MB and the error record. -/
theorem Compressing.run_alone {hv : HashState} {M : Block} {s : State} {k : Nat} (h : Compressing hv M s) (hp : s.pending = [])
    (hk : s.t.toNat + k = 81) :
    engineStepsIn k s = k ∧ ∃ v, Sys2Proof.core.run k s = .next v ∧ Compressed hv M v ∧
      v.mb = s.mb ∧ v.err = s.err ∧ v.errcode = s.errcode := by
  induction k generalizing s with
  | zero =>
    have hle := h.t_le
    omega
  | succ k ih =>
    have hn : nextAgent s = some .engine :=
      nextAgent_of_engine_only (hostReady_eq_false.2 hp) (engineReady_of_busy h.busy h.t_le)
    obtain ⟨u, hs⟩ := everyStepAnswersANextState s
    obtain ⟨hmb, herr, hcode, hpu⟩ := engine_step_frame hn hs
    rw [engineStepsIn_succ k hs, if_pos hn, run_succ_of_step Sys2Proof.core k hs, ← hmb, ← herr, ← hcode]
    rcases h.step (not_resetsNext_of_not_mem (by simp [hp])) hs with ⟨hu, ⟨hhost, -⟩ | ⟨-, ht⟩⟩ | ⟨-, ht, hdone⟩
    · simp [hn] at hhost
    · obtain ⟨hsteps, hend⟩ := ih hu (hpu.trans hp) (by omega)
      exact ⟨by omega, hend⟩
    · obtain rfl : k = 0 := by omega
      exact ⟨rfl, u, rfl, hdone, rfl, rfl, rfl⟩

/-- Settles O43: the run counts T up to 80, the engine's step from there is FINAL, and without host moves nothing comes between. -/
theorem compressionTakesExactly81EngineSteps : Obligations.CompressionTakesExactly81EngineSteps := by
  intro s u hb hp hstart
  cases (exec_start_of_idle hb).symm.trans hstart
  have hbegun := Compressing.loadBlock s
  have hcount (k : Nat) (v : State) (hrun : Sys2Proof.core.run k (loadBlock s) = .next v)
      (hk : engineStepsIn k (loadBlock s) ≤ 80) :
      Compressing s.h s.mb v ∧ v.t.toNat = engineStepsIn k (loadBlock s) ∧ HostMove.reset ∉ v.pending := by
    simpa using hbegun.run hp hrun (by simpa using hk)
  refine ⟨fun k v hrun hk => ?_, fun k v w hrun hk hn hs => ?_, fun hnone => hbegun.run_alone hnone rfl⟩
  · obtain ⟨hv, ht, -⟩ := hcount k v hrun hk
    exact ⟨hv, ht⟩
  · obtain ⟨hv, ht, hpv⟩ := hcount k v hrun hk.le
    obtain ⟨hmb, herr, hcode, -⟩ := engine_step_frame hn hs
    exact ⟨hv.last_step (ht.trans hk) hn (not_resetsNext_of_not_mem hpv) hs, hmb, herr, hcode⟩

end Sys2Proof.Machine

/-! PROOFS. The statements of 45_reference_function.md: the digest function, and the driver run on the machine from its first move
to its end, under every interleaving. -/

namespace Sys2Proof.Machine

/-! ### The digest of a message (R170, R171, R175) -/

theorem digest_of_messageBlocks {m : List Byte} {bs : List Block} (h : messageBlocks m = some bs) :
    digest m = some (digestBytes (hashBlocks iv bs)) := by
  rw [digest, h, Option.map_some]

/-- Blocks come from a padded message: Parse answers on every one (R115). -/
theorem pad_of_messageBlocks {m : List Byte} {bs : List Block} (h : messageBlocks m = some bs) :
    ∃ p, pad m = some p ∧ bs = (List.range ((m.length + 8) / 64 + 1)).map (blockAt p) := by
  obtain ⟨p, hp, -⟩ := Option.bind_eq_some_iff.1 h
  exact ⟨p, hp, Option.some.inj (h.symm.trans (messageBlocks_of_pad hp))⟩

/-- Settles O48: below the bound the message has a padding, and its blocks fix the digest. -/
theorem digestHasTwentyBytes : Obligations.DigestHasTwentyBytes := by
  intro m hm
  have hblocks := messageBlocks_of_pad (pad_eq_some.2 ⟨hm, rfl⟩)
  exact ⟨_, _, hblocks, by simp, digest_of_messageBlocks hblocks, rfl, digestBytes_length _⟩

/-- A block that stands whole in the first part of a byte sequence is read from that part. -/
theorem blockAt_append {p : List Byte} (q : List Byte) {j : Nat} (h : 64 * (j + 1) ≤ p.length) :
    blockAt (p ++ q) j = blockAt p j := by
  have hbyte (n : Nat) (hn : n < 64 * (j + 1)) : (p ++ q).getD n 0#8 = p.getD n 0#8 :=
    List.getD_append _ _ _ _ (by omega)
  ext1 i hi
  simp only [blockAt, Vector.getElem_ofFn]
  rw [hbyte _ (by omega), hbyte _ (by omega), hbyte _ (by omega), hbyte _ (by omega)]

/-- Whole blocks at the head of a message are its first blocks, whatever follows: padding only appends. -/
theorem take_messageBlocks {pre x : List Byte} {k : Nat} {bs : List Block} (hlen : pre.length = 64 * k)
    (h : messageBlocks (pre ++ x) = some bs) : bs.take k = (List.range k).map (blockAt pre) := by
  obtain ⟨p, hp, rfl⟩ := pad_of_messageBlocks h
  obtain ⟨-, rfl⟩ := pad_eq_some.1 hp
  have hk : k ≤ ((pre ++ x).length + 8) / 64 + 1 := by
    rw [List.length_append]
    omega
  rw [← List.map_take, List.take_range, Nat.min_eq_left hk]
  refine List.map_congr_left fun j hj => ?_
  rw [List.append_assoc, List.append_assoc, blockAt_append]
  have hjk := List.mem_range.1 hj
  omega

theorem hashBlocks_append (h : HashState) (bs bs' : List Block) :
    hashBlocks h (bs ++ bs') = hashBlocks (hashBlocks h bs) bs' := List.foldl_append

/-- Settles O49: both messages begin with the blocks of the shared prefix, and the hash state is a fold over the blocks. -/
theorem sharedPrefixGivesTheSameHashState : Obligations.SharedPrefixGivesTheSameHashState := by
  intro pre x y k bx bt hlen hx hy
  have hshared : bx.take k = bt.take k := (take_messageBlocks hlen hx).trans (take_messageBlocks hlen hy).symm
  refine ⟨hshared, ?_⟩
  rw [← hshared, ← hashBlocks_append, List.take_append_drop]

/-! ### Runs -/

theorem run_add {j : Nat} {s v : State} (k : Nat) (h : Sys2Proof.core.run j s = .next v) :
    Sys2Proof.core.run (j + k) s = Sys2Proof.core.run k v := by
  induction j generalizing s with
  | zero =>
    cases h
    rw [Nat.zero_add]
  | succ j ih =>
    obtain ⟨u, hs, hrest⟩ := step_of_run_succ h
    rw [Nat.add_right_comm, run_succ_of_step Sys2Proof.core (j + k) hs, ih hrest]

/-- An ended run keeps all its state (R192, R212). -/
theorem run_of_ended {s : State} (h : Ended s) (k : Nat) : Sys2Proof.core.run k s = .next s := by
  obtain ⟨hp, hb⟩ := h
  have hn := nextAgent_of_idle (hostReady_eq_false.2 hp) (engineReady_of_idle hb)
  have hs : step s = .next s := by simp [step, hn]
  induction k with
  | zero => rfl
  | succ k ih => rw [run_succ_of_step Sys2Proof.core k hs, ih]

/-- A run has one end. -/
theorem ended_unique {s u v : State} {j k : Nat} (hu : Sys2Proof.core.run j s = .next u) (hue : Ended u)
    (hv : Sys2Proof.core.run k s = .next v) (hve : Ended v) : u = v := by
  have huv := (run_add k hu).trans (run_of_ended hue k)
  have hvu := (run_add j hv).trans (run_of_ended hve j)
  rw [Nat.add_comm] at hvu
  exact Host.Outcome.next.inj (huv.symm.trans hvu)

/-! ### Which turns a step uses up -/

/-- A step changes the recorded turns only by using one up. -/
theorem turns_of_step {s u : State} (hs : step s = .next u) : u.turns = (useTurn s).turns := by
  rcases step_cases s with ⟨hn, hstep⟩ | ⟨-, m, rest, -, hstep⟩ | ⟨-, -, -, hstep⟩ | ⟨-, -, -, hstep⟩
  · cases hstep.symm.trans hs
    obtain ⟨hh, -⟩ := nextAgent_none hn
    rw [useTurn_of_not_contested (by simp [contested, hh])]
  · obtain ⟨hturns, -⟩ := hostMove_interleaving (hstep.symm.trans hs)
    exact hturns
  · cases hstep.symm.trans hs
    rfl
  · cases hstep.symm.trans hs
    rfl

/-- The recorded turns after a contested step: the first is gone, and it was the turn of the agent that moved. -/
theorem turns_of_contested_step {s u : State} (hc : contested s = true) (hs : step s = .next u) (hts : s.turns ≠ []) :
    ∃ g, nextAgent s = some g ∧ s.turns = g :: u.turns := by
  obtain ⟨g, rest, hg⟩ := List.exists_cons_of_ne_nil hts
  refine ⟨g, by simp [nextAgent, hc, hg], ?_⟩
  rw [turns_of_step hs, useTurn_of_turn hc hg, hg]

/-! ### Stretches of a run, with their cost -/

/-- The run from `s` comes to `v`; and where `s` records `e` turns of the engine for it, it does so within one step per recorded
turn it uses up and `m` moves of the host, and leaves the other recorded turns of the engine. -/
def Leads (e m : Nat) (s v : State) : Prop :=
  ∃ k, Sys2Proof.core.run k s = .next v ∧
    ∀ c, e + c ≤ engineTurns s.turns → k + v.turns.length ≤ s.turns.length + m ∧ c ≤ engineTurns v.turns

theorem Leads.refl (s : State) : Leads 0 0 s s := ⟨0, rfl, fun c hc => ⟨by omega, by omega⟩⟩

theorem Leads.trans {e e' m m' : Nat} {s v w : State} (hv : Leads e m s v) (hw : Leads e' m' v w) :
    Leads (e + e') (m + m') s w := by
  obtain ⟨j, hj, hjcost⟩ := hv
  obtain ⟨k, hk, hkcost⟩ := hw
  refine ⟨j + k, (run_add k hj).trans hk, fun c hc => ?_⟩
  obtain ⟨hjlen, hjleft⟩ := hjcost (e' + c) (by omega)
  obtain ⟨hklen, hkleft⟩ := hkcost c hjleft
  exact ⟨by omega, hkleft⟩

/-- On an idle engine the host's oldest move is the next step, and no turn is used up (log 4). -/
theorem Leads.of_idle_move {s u : State} {m : HostMove} {rest : List HostMove} (hb : s.busy = false)
    (hp : s.pending = m :: rest) (hm : hostMove m { s with pending := rest } = .next u) : Leads 0 1 s u := by
  have hn : nextAgent s = some .host :=
    nextAgent_of_host_only (hostReady_eq_true.2 (by simp [hp])) (engineReady_of_idle hb)
  have hfree := useTurn_of_not_contested (not_contested_of_idle hb)
  have hs : step s = .next u := by rw [step_host hn hp, hfree, hm]
  have hturns : u.turns = s.turns := by rw [turns_of_step hs, hfree]
  refine ⟨1, run_succ_of_step Sys2Proof.core 0 hs, fun c hc => ?_⟩
  rw [hturns]
  exact ⟨by omega, by omega⟩

theorem Leads.snoc_idle_move {e n : Nat} {s v u : State} {m : HostMove} {rest : List HostMove} (h : Leads e n s v)
    (hb : v.busy = false) (hp : v.pending = m :: rest) (hm : hostMove m { v with pending := rest } = .next u) :
    Leads e (n + 1) s u := h.trans (.of_idle_move hb hp hm)

/-- A contested step is paid by the turn it uses up, which is the engine's where the engine moves. -/
theorem Leads.cons_contested {e e' : Nat} {s u v : State} (hc : contested s = true) (hs : step s = .next u)
    (hpos : 0 < e') (he : e' = e + if nextAgent s = some .engine then 1 else 0) (h : Leads e 0 u v) : Leads e' 0 s v := by
  obtain ⟨k, hk, hcost⟩ := h
  refine ⟨k + 1, (run_succ_of_step Sys2Proof.core k hs).trans hk, fun c hle => ?_⟩
  have hts : s.turns ≠ [] := by
    intro hnil
    rw [hnil, engineTurns, List.count_nil] at hle
    omega
  obtain ⟨g, hn, hg⟩ := turns_of_contested_step hc hs hts
  have hcount : engineTurns s.turns = engineTurns u.turns + if nextAgent s = some .engine then 1 else 0 := by
    cases g <;> simp [hg, hn, engineTurns]
  obtain ⟨hlen, hleft⟩ := hcost c (by omega)
  rw [hg, List.length_cons]
  exact ⟨by omega, hleft⟩

/-! ### The driver's moves on an idle engine -/

theorem hostMove_cmdInit {s : State} (hb : s.busy = false) : hostMove (cmd 1#32) s = .next (loadIv s) := by
  have hd : decodeAccess (regWrite offCmd 1#32) = .op .init := decodeAccess_regWrite offCmd 1#32
  exact (transact_of_op hd s).trans (exec_init_of_idle hb)

theorem hostMove_cmdStart {s : State} (hb : s.busy = false) : hostMove (cmd 2#32) s = .next (loadBlock s) := by
  have hd : decodeAccess (regWrite offCmd 2#32) = .op .start := decodeAccess_regWrite offCmd 2#32
  exact (transact_of_op hd s).trans (exec_start_of_idle hb)

theorem hostMove_wrBlockWord (i : BitVec 4) (v : Word) (s : State) :
    hostMove (wrBlockWord i v) s = .next (writeBlock i v s) := by
  have hd : decodeAccess (regWrite (offBlock i) v) = .op (.wrmb i v) := by
    rw [decodeAccess_regWrite, decodeFields_write_offBlock]
  exact transact_of_op hd s

theorem hostMove_rdHash (i : Fin 5) (s : State) : hostMove (rdHash (BitVec.ofNat 3 i)) s = .next (reply s.h[i] s) := by
  have hidx : (BitVec.ofNat 3 i.val).toNat = i := by rw [BitVec.toNat_ofNat, Nat.mod_eq_of_lt (by omega)]
  have hle : (BitVec.ofNat 3 i.val).toNat ≤ 4 := by omega
  have hd : decodeAccess (regRead (offHash (BitVec.ofNat 3 i))) = .op (.rdh (BitVec.ofNat 3 i)) := by
    rw [decodeAccess_regRead, decodeFields_read_offHash _ hle]
  have hread := (transact_of_op hd s).trans (execRdh_of_le hle s)
  simp only [hidx] at hread
  exact hread

/-- Writing the words of `M` that the buffer does not hold yet makes the buffer `M`. -/
theorem leads_of_writes (M : Block) (rest : List HostMove) (l : List (Fin 16)) {s : State} (hb : s.busy = false)
    (hp : s.pending = l.map (fun i : Fin 16 => wrBlockWord (BitVec.ofNat 4 i) M[i]) ++ rest)
    (hmb : ∀ j, j ∉ l → s.mb[j] = M[j]) : Leads 0 l.length s { s with mb := M, pending := rest } := by
  induction l generalizing s with
  | nil =>
    obtain rfl : s.pending = rest := hp
    obtain rfl : s.mb = M := by
      ext1 j hj
      exact hmb ⟨j, hj⟩ List.not_mem_nil
    exact .refl s
  | cons i l ih =>
    have hfirst := Leads.of_idle_move hb hp (hostMove_wrBlockWord _ M[i] _)
    have hrest := ih (s := writeBlock (BitVec.ofNat 4 i) M[i] { s with pending := _ }) hb rfl fun j hj => by
      have hi : (BitVec.ofNat 4 i.val).toNat = i := by simp
      rw [getElem_writeBlock, hi]
      split
      case isTrue heq => rw [Fin.ext heq]
      case isFalse hne => exact hmb j (by simp [hj, Fin.ext_iff, hne])
    simpa [Nat.add_comm] using hfirst.trans hrest

/-- `wrblk M` on an idle engine fills the buffer with `M`, whatever it held (R78, R123). -/
theorem leads_of_wrblk {M : Block} {rest : List HostMove} {s : State} (hb : s.busy = false)
    (hp : s.pending = wrblk M ++ rest) : Leads 0 16 s { s with mb := M, pending := rest } := by
  rw [wrblk, List.ofFn_eq_map] at hp
  simpa using leads_of_writes M rest (List.finRange 16) hb hp fun j hj => absurd (List.mem_finRange j) hj

/-- Reads of H on an idle engine return its words, the last first on the list of replies. -/
theorem leads_of_reads (rest : List HostMove) (l : List (Fin 5)) {s : State} (hb : s.busy = false)
    (hp : s.pending = l.map (fun i : Fin 5 => rdHash (BitVec.ofNat 3 i)) ++ rest) :
    Leads 0 l.length s { s with replies := (l.map fun i => s.h[i]).reverse ++ s.replies, pending := rest } := by
  induction l generalizing s with
  | nil =>
    obtain rfl : s.pending = rest := hp
    exact .refl s
  | cons i l ih =>
    have hfirst := Leads.of_idle_move hb hp (hostMove_rdHash i _)
    have hrest := ih (s := reply s.h[i] { s with pending := _ }) hb rfl
    simpa [reply, Nat.add_comm] using hfirst.trans hrest

theorem map_getElem_finRange (h : HashState) : ((List.finRange 5).map fun i => h[i]) = h.toList :=
  List.ext_getElem (by simp) fun i _ _ => by simp

/-- `rddigest` as the last moves reads the whole hash state (R78, R127). -/
theorem leads_of_rddigest {s : State} (hb : s.busy = false) (hp : s.pending = rddigest) :
    Leads 0 5 s { s with replies := s.h.toList.reverse ++ s.replies, pending := [] } := by
  have hreads := leads_of_reads [] (List.finRange 5) hb hp
  rwa [map_getElem_finRange, List.length_finRange] at hreads

/-! ### The wait for a compression, under every interleaving -/

/-- What the engine's steps and the polls of `wait` leave alone (R157, R78). -/
structure SameHostSide (s u : State) : Prop where
  mb : u.mb = s.mb
  err : u.err = s.err
  errcode : u.errcode = s.errcode
  pending : u.pending = s.pending

theorem SameHostSide.refl (s : State) : SameHostSide s s := ⟨rfl, rfl, rfl, rfl⟩

theorem SameHostSide.trans {s u v : State} (hsu : SameHostSide s u) (huv : SameHostSide u v) : SameHostSide s v where
  mb := huv.mb.trans hsu.mb
  err := huv.err.trans hsu.err
  errcode := huv.errcode.trans hsu.errcode
  pending := huv.pending.trans hsu.pending

theorem SameHostSide.of_engine_step {s u : State} (hn : nextAgent s = some .engine) (hs : step s = .next u) :
    SameHostSide s u := by
  obtain ⟨hmb, herr, hcode, hp⟩ := engine_step_frame hn hs
  exact ⟨hmb, herr, hcode, hp⟩

/-- During a compression a host that waits changes nothing of its own side, whichever agent moves. -/
theorem sameHostSide_of_waiting_step {s u : State} {rest : List HostMove} (hb : s.busy = true)
    (hp : s.pending = .wait :: rest) (hs : step s = .next u) : SameHostSide s u := by
  rcases step_cases s with ⟨-, hstep⟩ | ⟨hn, -⟩ | ⟨hn, -⟩ | ⟨hn, -⟩
  · cases hstep.symm.trans hs
    exact .refl s
  · cases ((step_host hn hp).trans (hostMove_wait _)).symm.trans hs
    exact ⟨by simp, by simp, by simp, by simp [hb, hp]⟩
  · exact .of_engine_step hn hs
  · exact .of_engine_step hn hs

/-- A host that waits sees the compression completed, whatever the interleaving: a poll leaves fewer moves to the host before the
engine's step, a step of the engine brings T closer to 80. -/
theorem Compressing.leads_compressed {hv : HashState} {M : Block} {rest : List HostMove} (s : State)
    (h : Compressing hv M s) (hp : s.pending = .wait :: rest) :
    ∃ v, Leads (81 - s.t.toNat) 0 s v ∧ Compressed hv M v ∧ SameHostSide s v := by
  have hle := h.t_le
  have hc : contested s = true := contested_of_busy (by simp [hp]) h.busy hle
  have hr : ¬ resetsNext s := fun ⟨_, hhead⟩ => by simp [hp] at hhead
  obtain ⟨u, hs⟩ := everyStepAnswersANextState s
  have hside := sameHostSide_of_waiting_step h.busy hp hs
  have hpu := hside.pending.trans hp
  rcases h.step hr hs with ⟨hu, ⟨hn, ht⟩ | ⟨hn, ht⟩⟩ | ⟨hn, ht, hdone⟩
  · have hfewer : hostMovesLeft u < hostMovesLeft s := by
      obtain ⟨v, hv, -, hless⟩ := step_host_while_busy h.busy hle hn hr
      cases hv.symm.trans hs
      exact hless
    obtain ⟨v, hrun, hv, hkept⟩ := Compressing.leads_compressed u hu hpu
    exact ⟨v, hrun.cons_contested hc hs (by omega) (by simp [hn, ht]), hv, hside.trans hkept⟩
  · have hleu := hu.t_le
    obtain ⟨v, hrun, hv, hkept⟩ := Compressing.leads_compressed u hu hpu
    exact ⟨v, hrun.cons_contested hc hs (by omega) (by rw [if_pos hn]; omega), hv, hside.trans hkept⟩
  · exact ⟨u, (Leads.refl u).cons_contested hc hs (by omega) (by simp [hn, ht]), hdone, hside⟩
termination_by (80 - s.t.toNat, hostMovesLeft s)
decreasing_by
  · rw [ht]
    exact Prod.Lex.right _ hfewer
  · exact Prod.Lex.left _ _ (by omega)

/-! ### The blocks of the driver -/

/-- `v` is `s` with the blocks `bs` hashed onto its hash state, one after the other, and no error recorded on the way. -/
structure Hashed (bs : List Block) (s v : State) : Prop where
  idle : v.busy = false
  done : s.done = true ∨ bs ≠ [] → v.done = true
  hash : v.h = hashBlocks s.h bs
  buffer : v.mb = bs.getLastD s.mb
  err : v.err = s.err
  errcode : v.errcode = s.errcode

theorem Hashed.nil {s : State} (hb : s.busy = false) : Hashed [] s s where
  idle := hb
  done := by simp
  hash := rfl
  buffer := rfl
  err := rfl
  errcode := rfl

theorem Hashed.cons {M : Block} {bs : List Block} {s v w : State} (hM : Hashed [M] s v) (hbs : Hashed bs v w) :
    Hashed (M :: bs) s w where
  idle := hbs.idle
  done _ := hbs.done (.inl (hM.done (.inr (by simp))))
  hash := by rw [hbs.hash, hM.hash]; rfl
  buffer := by
    rw [hbs.buffer, hM.buffer]
    exact (List.getLastD_cons ..).symm
  err := hbs.err.trans hM.err
  errcode := hbs.errcode.trans hM.errcode

/-- `hashblk M` from an idle engine hashes `M`: the words into MB, START, the 81 steps of the engine, and the poll that ends the
wait (R78, R158). -/
theorem leads_of_hashblk {M : Block} {rest : List HostMove} {s : State} (hb : s.busy = false)
    (hp : s.pending = hashblk M ++ rest) : ∃ v, Leads 81 18 s v ∧ Hashed [M] s v ∧ v.pending = rest := by
  have hwrites := leads_of_wrblk (rest := [cmd 2#32, .wait] ++ rest) hb (by rw [hp, hashblk, List.append_assoc])
  have hstart := hwrites.snoc_idle_move hb rfl (hostMove_cmdStart hb)
  have hbegun := Compressing.loadBlock { s with mb := M, pending := .wait :: rest }
  obtain ⟨v, hwaits, hv, hkept⟩ := hbegun.leads_compressed _ rfl
  have hpoll := (hstart.trans hwaits).snoc_idle_move hv.idle hkept.pending (hostMove_wait _)
  refine ⟨_, hpoll, ?_, by simp [hv.idle]⟩
  exact {
    idle := hv.idle
    done := fun _ => hv.done
    hash := hv.hash
    buffer := hkept.mb
    err := hkept.err
    errcode := hkept.errcode }

/-- The blocks of the driver, one `hashblk` each. -/
theorem leads_of_blocks (bs : List Block) {rest : List HostMove} {s : State} (hb : s.busy = false)
    (hp : s.pending = bs.flatMap hashblk ++ rest) :
    ∃ v, Leads (81 * bs.length) (18 * bs.length) s v ∧ Hashed bs s v ∧ v.pending = rest := by
  induction bs generalizing s with
  | nil => exact ⟨s, .refl s, .nil hb, hp⟩
  | cons M bs ih =>
    obtain ⟨v, hfirst, hM, hpv⟩ := leads_of_hashblk (M := M) hb (by rw [hp, List.flatMap_cons, List.append_assoc])
    obtain ⟨w, hrest, hbs, hpw⟩ := ih hM.idle hpv
    refine ⟨w, ?_, hM.cons hbs, hpw⟩
    simpa [Nat.mul_add, Nat.add_comm] using hfirst.trans hrest

/-! ### The driver from its first move to its end (R173) -/

/-- The driver comes to the end of its run with the blocks hashed from IV and the five words of H read. -/
theorem leads_of_driver {bs : List Block} {s : State} (hb : s.busy = false) (hp : s.pending = driverFor bs) :
    ∃ v, Hashed bs (loadIv s) v ∧
      Leads (81 * bs.length) (18 * bs.length + 6) s
        { v with replies := v.h.toList.reverse ++ v.replies, pending := [] } := by
  have hinit := Leads.of_idle_move hb hp (hostMove_cmdInit hb)
  obtain ⟨v, hblocks, hv, hpv⟩ := leads_of_blocks bs (s := loadIv { s with pending := _ }) hb rfl
  have hread := leads_of_rddigest hv.idle hpv
  refine ⟨v, { hv with }, ?_⟩
  convert (hinit.trans hblocks).trans hread using 1 <;> omega

theorem messageBlocks_ne_nil {m : List Byte} {bs : List Block} (h : messageBlocks m = some bs) : bs ≠ [] := by
  obtain ⟨p, -, rfl⟩ := pad_of_messageBlocks h
  simp

/-- Settles O50: the driver reaches its end with the digest read, and a run has one end. -/
theorem driverComputesTheDigest : Obligations.DriverComputesTheDigest := by
  intro m bs s hm hb hp k u hrun hend
  obtain ⟨v, hv, j, hw, -⟩ := leads_of_driver hb hp
  cases ended_unique hrun hend hw ⟨rfl, hv.idle⟩
  have hne := messageBlocks_ne_nil hm
  refine ⟨?_, hv.hash, hv.done (.inr hne), ?_, hv.err, hv.errcode⟩
  · have hread : (v.h.toList.reverse ++ v.replies).take 5 = v.h.toList.reverse := List.take_left' (by simp)
    simp only [hread, List.reverse_reverse]
    rw [digest_of_messageBlocks hm, hv.hash]
    rfl
  · simp [hv.buffer, List.getLast?_eq_some_getLast hne]

/-- Settles O51: the driver's way to its end costs at most the recorded turns and its own moves. -/
theorem driverTerminatesUnderFairness : Obligations.DriverTerminatesUnderFairness := by
  intro m bs s hm hb hp hfair
  obtain ⟨v, hv, k, hrun, hcost⟩ := leads_of_driver hb hp
  obtain ⟨hbound, -⟩ := hcost 0 hfair
  exact ⟨k, _, by omega, hrun, rfl, hv.idle⟩

end Sys2Proof.Machine

/-! PROOFS. The statements of 60_exceptions.md: which accesses are rejected with which code, and that a raised error is its record
and nothing else. -/

namespace Sys2Proof

/-! ### Rejections by the decoder (R73, R183, R184) -/

/-- A command word above 2 is the one rejection the command decoder has (R73). -/
theorem decodeCommand_eq_reject_iff {data : Word} {c : ErrorCode} :
    decodeCommand data = .reject c ↔ c = .illegalCmd ∧ 3 ≤ data.toNat := by
  unfold decodeCommand
  split_ifs with h <;> simp [h, eq_comm]

/-- The access of direction `k` to the register at `off`, in the one width that has a transaction word (R54, R70). -/
def accessAt (k : Kind) (off : BitVec 8) (data : Word) : Access := { kind := k, off := off.toNat, width := 32, data := data }

theorem decodeAccess_accessAt (k : Kind) (off : BitVec 8) (data : Word) :
    decodeAccess (accessAt k off data) = decodeFields k off data := by
  have hword : (accessAt k off data).wellFormed = true := by simp [accessAt, Access.wellFormed, off.isLt]
  rw [decodeAccess_eq, if_pos hword]
  simp [accessAt]

/-- The accesses to the registers that exist, each with what it decodes to (R55, R72, R75). -/
inductive RegisterAccess : Access → Decoded → Prop
  | writeCmd (v : Word) : RegisterAccess (accessAt .write offCmd v) (decodeCommand v)
  | readCmd (v : Word) : RegisterAccess (accessAt .read offCmd v) (.reject .badAccess)
  | writeStatus (v : Word) : RegisterAccess (accessAt .write offStatus v) (.reject .badAccess)
  | readStatus (v : Word) : RegisterAccess (accessAt .read offStatus v) (.op .rdstatus)
  | writeHash {idx : BitVec 3} (hidx : idx.toNat ≤ 4) (v : Word) :
      RegisterAccess (accessAt .write (offHash idx) v) (.reject .badAccess)
  | readHash {idx : BitVec 3} (hidx : idx.toNat ≤ 4) (v : Word) :
      RegisterAccess (accessAt .read (offHash idx) v) (.op (.rdh idx))
  | writeBlock (idx : BitVec 4) (v : Word) : RegisterAccess (accessAt .write (offBlock idx) v) (.op (.wrmb idx v))
  | readBlock (idx : BitVec 4) (v : Word) : RegisterAccess (accessAt .read (offBlock idx) v) (.op (.rdmb idx))

/-- Every access with a transaction word is the access to some place in the map. -/
theorem exists_accessAt {a : Access} (hw : a.width = 32) (hoff : a.off < 256) :
    ∃ k off v, a.off = BitVec.toNat off ∧ a = accessAt k off v := by
  have hnat : (BitVec.ofNat 8 a.off).toNat = a.off := by simpa using hoff
  exact ⟨a.kind, BitVec.ofNat 8 a.off, a.data, hnat.symm, by rw [accessAt, hnat, ← hw]⟩

/-- An aligned offset outside the reserved ranges is a register's (R55). -/
theorem register_of_not_reserved {off : BitVec 8} (halign : off.toNat % 4 = 0) (hres : ¬ Machine.ReservedOffset off.toNat) :
    off = offCmd ∨ off = offStatus ∨ (∃ idx : BitVec 3, idx.toNat ≤ 4 ∧ off = offHash idx) ∨ ∃ idx, off = offBlock idx := by
  unfold Machine.ReservedOffset at hres
  have hranges : off.toNat = 0x00 ∨ off.toNat = 0x04 ∨ (0x20 ≤ off.toNat ∧ off.toNat < 0x34) ∨
      (0x40 ≤ off.toNat ∧ off.toNat < 0x80) := by omega
  rcases hranges with h | h | ⟨hlo, hhi⟩ | ⟨hlo, hhi⟩
  · exact .inl (BitVec.eq_of_toNat_eq h)
  · exact .inr (.inl (BitVec.eq_of_toNat_eq h))
  · obtain ⟨i, hi⟩ : ∃ i, off.toNat = 0x20 + 4 * i := ⟨(off.toNat - 0x20) / 4, by omega⟩
    exact .inr (.inr (.inl ⟨_, by simp; omega, eq_offHash_ofNat (by omega) hi⟩))
  · obtain ⟨i, hi⟩ : ∃ i, off.toNat = 0x40 + 4 * i := ⟨(off.toNat - 0x40) / 4, by omega⟩
    exact .inr (.inr (.inr ⟨_, eq_offBlock_ofNat (by omega) hi⟩))

/-- Outside the conditions of BAD_ADDR an access is to a register. -/
theorem registerAccess_of_not_badAddress {a : Access} (h : ¬ Machine.BadAddress a) : RegisterAccess a (decodeAccess a) := by
  simp only [Machine.BadAddress, not_or, not_not, not_lt] at h
  obtain ⟨hw, hlt, halign, hres⟩ := h
  obtain ⟨k, off, v, hoff, rfl⟩ := exists_accessAt hw (Nat.lt_succ_of_le hlt)
  rw [hoff] at halign hres
  rw [decodeAccess_accessAt]
  rcases register_of_not_reserved halign hres with rfl | rfl | ⟨idx, hidx, rfl⟩ | ⟨idx, rfl⟩
  · cases k with
    | read => exact .readCmd v
    | write => exact .writeCmd v
  · cases k with
    | read => exact .readStatus v
    | write => exact .writeStatus v
  · cases k with
    | read => exact decodeFields_read_offHash v hidx ▸ .readHash hidx v
    | write => exact decodeFields_write_offHash v hidx ▸ .writeHash hidx v
  · cases k with
    | read => exact decodeFields_read_offBlock v idx ▸ .readBlock idx v
    | write => exact decodeFields_write_offBlock v idx ▸ .writeBlock idx v

/-- Each condition of BAD_ADDR is a line of R75 or leaves the access without a transaction word. -/
theorem decodeAccess_of_badAddress {a : Access} (h : Machine.BadAddress a) : decodeAccess a = .reject .badAddr := by
  by_cases hwf : a.wellFormed = true
  · have hword : a.width = 32 ∧ a.off < 256 := by simpa [Access.wellFormed] using hwf
    obtain ⟨hw, hlt⟩ := hword
    obtain ⟨k, off, v, hoff, rfl⟩ := exists_accessAt hw hlt
    rw [decodeAccess_accessAt]
    by_cases ha : off.toNat % 4 = 0
    · refine decodeFields_reserved v k (selectTarget_reserved ha ?_)
      rcases h with h | h | h | h
      · exact absurd hw h
      · omega
      · exact absurd ha h
      · exact h
    · obtain ⟨halign, -⟩ := selectTarget_by_range off
      exact decodeFields_misaligned v k (halign.2 ha)
  · rw [decodeAccess_eq, if_neg hwf]

/-- A register rejects the wrong direction, and CMD an illegal command word. -/
theorem RegisterAccess.cause_of_reject {a : Access} {d : Decoded} {c : ErrorCode} (h : RegisterAccess a d) (hd : d = .reject c) :
    c = .badAccess ∨ (c = .illegalCmd ∧ a.kind = .write ∧ a.off = 0x00 ∧ 3 ≤ a.data.toNat) := by
  cases h with
  | writeCmd v =>
    obtain ⟨hc, h3⟩ := decodeCommand_eq_reject_iff.1 hd
    exact .inr ⟨hc, rfl, rfl, h3⟩
  | readCmd | writeStatus | writeHash => cases hd; exact .inl rfl
  | readStatus | readHash | writeBlock | readBlock => cases hd

/-- INIT and START are the words 1 and 2 written to CMD (R73). -/
theorem RegisterAccess.writes_of_command {a : Access} {d : Decoded} {i : Instr} (h : RegisterAccess a d) (hd : d = .op i)
    (hi : i = .init ∨ i = .start) : a.kind = .write ∧ a.off = 0x00 ∧ a.data.toNat ≠ 0 := by
  cases h with
  | writeCmd v =>
    refine ⟨rfl, rfl, ?_⟩
    rcases decodeCommand_eq_op_iff.1 hd with ⟨-, rfl⟩ | ⟨rfl, -⟩ | ⟨rfl, -⟩
    · simp at hi
    · simp [accessAt]
    · simp [accessAt]
  | readCmd | writeStatus | writeHash => cases hd
  | readStatus | readHash | writeBlock | readBlock => cases hd; simp at hi

/-- BAD_ACCESS is the wrong direction at a register that exists (R184). -/
theorem RegisterAccess.eq_badAccess_iff {a : Access} {d : Decoded} (h : RegisterAccess a d) :
    d = .reject .badAccess ↔ Machine.BadDirection a := by
  cases h with
  | writeCmd v =>
    have hbelow (i : Nat) (_ : i ≤ 4) : 0 ≠ 0x20 + 4 * i := by omega
    simpa [decodeCommand_eq_reject_iff, Machine.BadDirection, accessAt, offCmd] using hbelow
  | readCmd v => simp [Machine.BadDirection, accessAt, offCmd]
  | writeStatus v => simp [Machine.BadDirection, accessAt, offStatus]
  | readStatus v => simp [Machine.BadDirection, accessAt, offStatus]
  | @writeHash idx hidx v => simp [Machine.BadDirection, accessAt, offHash_toNat, hidx]
  | readHash _ v => simp [Machine.BadDirection, accessAt, offHash_toNat]
  | writeBlock idx v =>
    have hpast (i : Nat) (hi : i ≤ 4) : 0x40 + 4 * idx.toNat ≠ 0x20 + 4 * i := by omega
    simpa [Machine.BadDirection, accessAt, offBlock_toNat] using ⟨by omega, hpast⟩
  | readBlock idx v => simp [Machine.BadDirection, accessAt, offBlock_toNat]

theorem decodeAccess_eq_badAddr_iff (a : Access) : decodeAccess a = .reject .badAddr ↔ Machine.BadAddress a := by
  refine ⟨fun h => by_contra fun hb => ?_, decodeAccess_of_badAddress⟩
  have hreject := (registerAccess_of_not_badAddress hb).cause_of_reject h
  simp at hreject

/-- A register that is read-only or write-only has an offset in the map. -/
theorem not_badAddress_of_badDirection {a : Access} (hw : a.width = 32) (h : Machine.BadDirection a) :
    ¬ Machine.BadAddress a := by
  simp only [Machine.BadAddress, Machine.ReservedOffset]
  rcases h with ⟨-, h | ⟨i, hi, h⟩⟩ | ⟨-, h⟩ <;> omega

theorem decodeAccess_eq_badAccess_iff (a : Access) :
    decodeAccess a = .reject .badAccess ↔ a.width = 32 ∧ Machine.BadDirection a := by
  constructor
  · intro h
    have hb : ¬ Machine.BadAddress a := fun hb => by simp [decodeAccess_of_badAddress hb] at h
    exact ⟨not_not.1 fun hw => hb (.inl hw), (registerAccess_of_not_badAddress hb).eq_badAccess_iff.1 h⟩
  · rintro ⟨hw, hdir⟩
    have hb := not_badAddress_of_badDirection hw hdir
    exact (registerAccess_of_not_badAddress hb).eq_badAccess_iff.2 hdir

/-- A decoded operation is well formed: it has a word (R74). -/
theorem decodeAccess_wellFormed {a : Access} {i : Instr} (h : decodeAccess a = .op i) : i.wellFormed = true := by
  rw [decodeAccess_eq] at h
  split at h
  · have hword : (encode i).isSome = true := by rw [encode_of_decodeFields h, Option.isSome_some]
    rw [encode_isSome, Bool.and_eq_true] at hword
    exact hword.1
  · cases h

end Sys2Proof

namespace Sys2Proof.Machine

/-! ### A rejected transaction (R183, R184, R185) -/

/-- A transaction always answers a next state (R188). -/
theorem transact_answers (a : Access) (s : State) : ∃ u, transact a s = .next u := by
  obtain ⟨u, hu, -⟩ := hostMove_cases (.access a) s
  exact ⟨u, hu⟩

/-- A transaction that answers with a rejection has the effect of its error and no other. -/
theorem rejectedWith_of_transact {a : Access} {s u : State} {k : Kind} {c : ErrorCode} (hu : transact a s = .next u)
    (h : transact a s = .next (rejectWith k c s)) : RejectedWith k (errCodeBits c) s u := by
  cases h.symm.trans hu
  exact rejectWith_spec k c s

/-- Settles O9: the four conditions of BAD_ADDR leave no register to access, and every register decodes otherwise. -/
theorem badAddrIsRaisedExactlyOnAbsentOffsets : Obligations.BadAddrIsRaisedExactlyOnAbsentOffsets :=
  ⟨decodeAccess_eq_badAddr_iff, fun a s h =>
    ⟨_, transact_of_reject (decodeAccess_of_badAddress h) s, rejectWith_spec a.kind .badAddr s⟩⟩

/-- A 32-bit access in the wrong direction is rejected with BAD_ACCESS. -/
theorem transact_of_badDirection {a : Access} (hw : a.width = 32) (hdir : BadDirection a) (s : State) :
    transact a s = .next (rejectWith a.kind .badAccess s) :=
  transact_of_reject ((decodeAccess_eq_badAccess_iff a).2 ⟨hw, hdir⟩) s

/-- Settles O10: BAD_ACCESS is the wrong direction at a register, and the three accesses named have it. -/
theorem badAccessIsRaisedExactlyOnWrongDirection : Obligations.BadAccessIsRaisedExactlyOnWrongDirection := by
  refine ⟨decodeAccess_eq_badAccess_iff, fun v s => ?_, fun i v s hi => ?_, fun s => ?_⟩
  · exact ⟨_, transact_writeStatus v s, rejectWith_spec .write .badAccess s⟩
  · have hoff : (BitVec.ofNat 8 (0x20 + 4 * i)).toNat = 0x20 + 4 * i := by simp; omega
    exact ⟨_, transact_of_badDirection rfl (.inl ⟨rfl, .inr ⟨i, hi, hoff⟩⟩) s, rejectWith_spec .write .badAccess s⟩
  · exact ⟨_, transact_of_badDirection rfl (.inr ⟨rfl, rfl⟩) s, rejectWith_spec .read .badAccess s⟩

/-- Settles O11: three command words name an operation, every other one is above 2. -/
theorem illegalCommandWordsAreRejected : Obligations.IllegalCommandWordsAreRejected := by
  have hdecode (v : Word) : decodeAccess (regWrite 0x00#8 v) = decodeCommand v := decodeAccess_regWrite offCmd v
  refine ⟨fun v => ?_, fun v s h0 h1 h2 => ?_⟩
  · simp only [hdecode, decodeCommand_eq_op_iff, exists_or, exists_eq_right]
  · have hillegal : 3 ≤ v.toNat := by bv_omega
    exact ⟨_, transact_of_reject ((hdecode v).trans (decodeCommand_illegal hillegal)) s,
      rejectWith_spec .write .illegalCmd s⟩

/-! ### The first error that applies, or none (R180, R186) -/

/-- A well-formed transaction row raises no error, but for INIT and START while BUSY = 1. -/
theorem exec_keeps_record {i : Instr} (hi : i.isTransaction = true) (hwf : i.wellFormed = true) {s u : State}
    (hb : i = .init ∨ i = .start → s.busy = false) (h : exec i s = .next u) : u.err = s.err ∧ u.errcode = s.errcode := by
  cases (exec_transaction_next hi).symm.trans h
  cases i with
  | init | start => simp [hb]
  | rdh idx =>
    have hidx : idx.toNat < 5 := by simpa [Instr.wellFormed, Nat.lt_succ_iff] using hwf
    simp [hidx]
  | nop | wrmb | rdmb | rdstatus => exact ⟨rfl, rfl⟩
  | _ => cases hi

theorem width_of_not_badAddress {a : Access} (hb : ¬ BadAddress a) : a.width = 32 := not_not.1 fun hw => hb (.inl hw)

/-- A write to CMD decodes by its command word (R73). -/
theorem decodeAccess_of_writeCmd {a : Access} (hw : a.width = 32) (hk : a.kind = .write) (hoff : a.off = 0x00) :
    decodeAccess a = decodeCommand a.data := by
  have hwf : a.wellFormed = true := by simp [Access.wellFormed, hw, hoff]
  rw [decodeAccess_eq, if_pos hwf, hk, hoff]
  rfl

/-- While BUSY = 1 the command words 1 and 2 are rejected with CMD_WHILE_BUSY (R182). -/
theorem transact_of_writeCmd_busy {a : Access} (hw : a.width = 32) (hk : a.kind = .write) (hoff : a.off = 0x00)
    (hcmd : a.data.toNat = 1 ∨ a.data.toNat = 2) {s : State} (hb : s.busy = true) :
    transact a s = .next (rejectWith .write .cmdWhileBusy s) := by
  have hdecode := decodeAccess_of_writeCmd hw hk hoff
  have hdata {c : Word} (h : a.data.toNat = c.toNat) : decodeAccess a = decodeCommand c := by
    rw [hdecode, BitVec.eq_of_toNat_eq h]
  rcases hcmd with h | h
  · exact (transact_of_op (hdata (c := 1#32) h) s).trans (exec_command_of_busy (.inl rfl) hb)
  · exact (transact_of_op (hdata (c := 2#32) h) s).trans (exec_command_of_busy (.inr rfl) hb)

/-- Where none of the four causes of R180 applies, the error record is kept. -/
theorem transact_keeps_record {a : Access} {s u : State} (hb : ¬ BadAddress a) (hdir : ¬ BadDirection a)
    (hcmd : a.kind = .write → a.off = 0x00 → a.data.toNat < 3 ∧ (s.busy = true → a.data.toNat = 0))
    (h : transact a s = .next u) : u.err = s.err ∧ u.errcode = s.errcode := by
  have hreg := registerAccess_of_not_badAddress hb
  cases hd : decodeAccess a with
  | op i =>
    rw [transact_of_op hd] at h
    refine exec_keeps_record (decodeAccess_isTransaction hd) (decodeAccess_wellFormed hd) (fun hstarts => Bool.eq_false_iff.2 fun hbusy => ?_) h
    obtain ⟨hk, hoff, hne⟩ := hreg.writes_of_command hd hstarts
    obtain ⟨-, hzero⟩ := hcmd hk hoff
    exact hne (hzero hbusy)
  | reject c =>
    rcases hreg.cause_of_reject hd with rfl | ⟨-, hk, hoff, h3⟩
    · exact absurd (hreg.eq_badAccess_iff.1 hd) hdir
    · obtain ⟨hlt, -⟩ := hcmd hk hoff
      omega

/-- Settles O7: the causes in the order of R186, each by what the access then decodes to; a ROUND or FINAL row writes no error. -/
theorem transactionRaisesTheFirstErrorThatApplies : Obligations.TransactionRaisesTheFirstErrorThatApplies := by
  refine ⟨fun a s => ?_, fun i s hsel => ⟨_, exec_selected hsel (.refl s), by split <;> simp⟩⟩
  obtain ⟨u, hu⟩ := transact_answers a s
  refine ⟨u, hu, fun hb => ?_, fun hb hdir => ?_, fun hb _ hk hoff h3 => ?_, fun hb hk hoff hcmd hbusy => ?_,
    fun hb hdir hcmd => transact_keeps_record hb hdir hcmd hu⟩
  · exact rejectedWith_of_transact (c := .badAddr) hu (transact_of_reject (decodeAccess_of_badAddress hb) s)
  · exact rejectedWith_of_transact (c := .badAccess) hu (transact_of_badDirection (width_of_not_badAddress hb) hdir s)
  · have hd := (decodeAccess_of_writeCmd (width_of_not_badAddress hb) hk hoff).trans (decodeCommand_illegal h3)
    exact rejectedWith_of_transact (c := .illegalCmd) hu (hk ▸ transact_of_reject hd s)
  · exact rejectedWith_of_transact (c := .cmdWhileBusy) hu
      (transact_of_writeCmd_busy (width_of_not_badAddress hb) hk hoff hcmd hbusy)

/-! ### A raised error is its record (R181) -/

/-- A held record is kept: the first code stays (R181). -/
theorem OnlyRecords.record_of_err {s u : State} (h : OnlyRecords s u) (he : s.err = true) :
    u.err = true ∧ u.errcode = s.errcode := by
  obtain ⟨p, er, k, r, rfl, ⟨rfl, rfl⟩ | ⟨hno, -⟩⟩ := h
  · exact ⟨he, rfl⟩
  · simp [he] at hno

/-- Only Reset clears the error record. -/
theorem record_kept_of_step {s u : State} (h : step s = .next u) (he : s.err = true) (hr : ¬ resetsNext s) :
    u.err = true ∧ u.errcode = s.errcode := by
  cases stepEffect_of_step h with
  | idle => exact ⟨he, rfl⟩
  | reset hreset => exact absurd hreset hr
  | records hn _ hu => simpa [moveTaken] using hu.record_of_err (by simp [moveTaken, he])
  | init | start | wrmb | round | final => simp [moveTaken, he]

/-- `s` with another error record and other returned values. -/
def withRecord (er : Bool) (k : BitVec 4) (r : List Word) (s : State) : State :=
  { s with err := er, errcode := k, replies := r }

/-- The two states differ in the error record and the returned values at most. -/
def SameButRecord (s u : State) : Prop := ∃ er k r, u = withRecord er k r s

section
variable {er : Bool} {k : BitVec 4} {r : List Word} (s : State)

theorem sameEngine_withRecord : SameEngine s (withRecord er k r s) := by simp [SameEngine, withRecord]

/-- Neither agent looks at the record to move. -/
theorem nextAgent_withRecord : nextAgent (withRecord er k r s) = nextAgent s := rfl

theorem useTurn_withRecord : useTurn (withRecord er k r s) = withRecord er k r (useTurn s) := by
  have hc : contested (withRecord er k r s) = contested s := rfl
  have hw : engineWaitsOn (withRecord er k r s) = engineWaitsOn s := rfl
  have ht : (withRecord er k r s).turns = s.turns := rfl
  unfold useTurn
  rw [hc, hw, ht]
  cases contested s with
  | false => rfl
  | true =>
    cases s.turns with
    | cons g rest => rfl
    | nil => cases engineWaitsOn s <;> rfl

theorem SameButRecord.of_withRecord : SameButRecord s (withRecord er k r s) := ⟨er, k, r, rfl⟩

/-- A rejection writes the record and the returned values alone. -/
theorem SameButRecord.rejectWith (d : Kind) (c : ErrorCode) :
    SameButRecord (rejectWith d c s) (rejectWith d c (withRecord er k r s)) := by
  rw [rejectWith_spec d c s, rejectWith_spec d c (withRecord er k r s)]
  exact ⟨_, _, _, rfl⟩

theorem SameButRecord.reply (v w : Word) : SameButRecord (reply v s) (reply w (withRecord er k r s)) := ⟨_, _, _, rfl⟩

/-- A transaction row reads the record at most to return it or to keep the first code. -/
theorem exec_withRecord {i : Instr} (hi : i.isTransaction = true) :
    ∃ u v, exec i s = .next u ∧ exec i (withRecord er k r s) = .next v ∧ SameButRecord u v := by
  refine ⟨_, _, exec_transaction_next hi, exec_transaction_next hi, ?_⟩
  have hbusy : (withRecord er k r s).busy = s.busy := rfl
  cases i with
  | nop => exact .of_withRecord s
  | init =>
    simp only [hbusy]
    split
    · exact .rejectWith s _ _
    · exact .of_withRecord (loadIv s)
  | start =>
    simp only [hbusy]
    split
    · exact .rejectWith s _ _
    · exact .of_withRecord (loadBlock s)
  | wrmb idx v => exact .of_withRecord (writeBlock idx v s)
  | rdmb | rdstatus => exact .reply s _ _
  | rdh idx =>
    dsimp only
    split
    · exact .reply s _ _
    · exact .rejectWith s _ _
  | _ => cases hi

/-- A move of the host on the two states; `wait` looks at bit 0 of STATUS, where the record does not show. -/
theorem hostMove_withRecord (m : HostMove) :
    ∃ u v, hostMove m s = .next u ∧ hostMove m (withRecord er k r s) = .next v ∧ SameButRecord u v := by
  cases m with
  | reset => exact ⟨_, _, rfl, rfl, _, _, _, rfl⟩
  | wait => exact ⟨_, _, hostMove_wait s, hostMove_wait _, _, _, _, rfl⟩
  | access a =>
    rcases transact_cases a s with ⟨i, hd, hi, -⟩ | ⟨c, hd, -⟩
    · simpa only [hostMove, transact_of_op hd] using exec_withRecord s hi
    · exact ⟨_, _, transact_of_reject hd s, transact_of_reject hd _, .rejectWith s _ _⟩

/-- One step from two states that differ in the record leads to two that do. -/
theorem step_withRecord :
    ∃ u v, step s = .next u ∧ step (withRecord er k r s) = .next v ∧ SameButRecord u v := by
  have hn' : nextAgent (withRecord er k r s) = nextAgent s := nextAgent_withRecord s
  cases hn : nextAgent s with
  | none => exact ⟨s, withRecord er k r s, by simp [step, hn], by simp only [step, hn', hn], .of_withRecord s⟩
  | some g =>
    cases g with
    | host =>
      obtain ⟨m, rest, hp⟩ := hostReady_iff.1 (nextAgent_host hn)
      rw [step_host hn hp, step_host (hn'.trans hn) hp, useTurn_withRecord]
      exact hostMove_withRecord { useTurn s with pending := rest } m
    | engine =>
      obtain ⟨i, hi, hs⟩ := stepRunsTheSelectedMicroOperation s hn
      obtain ⟨j, hj, hs'⟩ := stepRunsTheSelectedMicroOperation _ (hn'.trans hn)
      cases Option.some.inj (hi.symm.trans hj)
      rw [useTurn_withRecord] at hs'
      have hsame : SameEngine s (withRecord er k r (useTurn s)) :=
        (sameEngine_useTurn s).trans (sameEngine_withRecord (useTurn s))
      refine ⟨_, _, hs.trans (exec_selected hi (sameEngine_useTurn s)), hs'.trans (exec_selected hi hsame), ?_⟩
      split
      · exact .of_withRecord (finalUpdate (useTurn s))
      · exact .of_withRecord (roundUpdate _ (useTurn s))

end

/-- Settles O8: a rejection is its record, only Reset clears it, and no step reads it but to return it. -/
theorem raisedErrorIsRecordedKeptAndHarmless : Obligations.RaisedErrorIsRecordedKeptAndHarmless := by
  refine ⟨fun k s => ?_, fun s u h he hr => record_kept_of_step h he hr, fun s er k => ?_⟩
  · exact ⟨rejectWith_spec k .cmdWhileBusy s, rejectWith_spec k .illegalCmd s, rejectWith_spec k .badAddr s,
      rejectWith_spec k .badAccess s⟩
  · obtain ⟨u, v, hu, hv, er', k', r, rfl⟩ := step_withRecord (er := er) (k := k) (r := s.replies) s
    exact ⟨u, _, hu, hv, sameEngine_withRecord u, rfl, rfl, rfl, rfl, rfl⟩

end Sys2Proof.Machine

/-! PROOFS. The statements of 70_reset_and_hazards.md: Reset writes every register, and every run comes to its end. -/

namespace Sys2Proof.Machine

/-! ### Reset (R200, R203) -/

/-- Settles O27: the host's turn makes the Reset, and what that leaves alone no turn touches either. -/
theorem resetWritesEveryRegister : Obligations.ResetWritesEveryRegister := by
  intro s rest hn hp
  refine ⟨_, step_host hn hp, rfl, rfl, rfl, rfl, rfl, rfl, fun i => ?_, rfl, rfl, rfl, rfl, rfl, rfl,
    engineReady_of_idle rfl, rfl, useTurn_replies s⟩
  simp [State.reset]

/-! ### Every run ends (R212) -/

/-- The steps a running compression still needs of the engine: its rounds from T on, and FINAL (R158). -/
def engineStepsLeft (s : State) : Nat := if s.busy then 81 - s.t.toNat else 0

theorem engineStepsLeft_of_busy {s : State} (hb : s.busy = true) : engineStepsLeft s = 81 - s.t.toNat := if_pos hb

theorem engineStepsLeft_of_idle {s : State} (hb : s.busy = false) : engineStepsLeft s = 0 := if_neg (by simp [hb])

/-- The range of T in a compression (R31 (i)) is kept by every step. -/
theorem t_le_of_step {s u : State} (ht : s.busy = true → s.t.toNat ≤ 80) (hs : step s = .next u) :
    u.busy = true → u.t.toNat ≤ 80 := by
  cases stepEffect_of_step hs with
  | idle => exact ht
  | reset | start => exact fun _ => Nat.zero_le _
  | init | wrmb => simpa [moveTaken] using ht
  | records _ _ hu =>
    obtain ⟨hsame, -⟩ := frame_of_records hu
    exact hsame.t_eq ▸ hsame.busy_eq ▸ ht
  | round _ _ hlt =>
    intro _
    rw [roundUpdate_t, useTurn_t, toNat_succ_of_lt hlt]
    exact hlt
  | final => simp

/-- A step of the engine is one of those the compression still needs. -/
theorem engineStepsLeft_of_engine_step {s u : State} (hn : nextAgent s = some .engine) (hs : step s = .next u) :
    engineStepsLeft u < engineStepsLeft s := by
  rcases step_cases s with ⟨hn', -⟩ | ⟨hn', -⟩ | ⟨-, hb, ht, hstep⟩ | ⟨-, hb, ht, hstep⟩
  · simp [hn] at hn'
  · simp [hn] at hn'
  · cases hstep.symm.trans hs
    rw [engineStepsLeft_of_busy hb, engineStepsLeft_of_busy (by simpa using hb), roundUpdate_t, useTurn_t,
      toNat_succ_of_lt ht]
    omega
  · cases hstep.symm.trans hs
    rw [engineStepsLeft_of_busy hb, engineStepsLeft_of_idle rfl, ht]
    omega

/-- A move of the host leaves a shorter program, or it is a `wait` that stays (R78): then the compression is where it was, and the
interleaving has fewer moves left for the host before the engine's step. -/
theorem host_step_progress {s u : State} (ht : s.busy = true → s.t.toNat ≤ 80) (hn : nextAgent s = some .host)
    (hs : step s = .next u) :
    u.pending.length < s.pending.length ∨
      (u.pending = s.pending ∧ engineStepsLeft u = engineStepsLeft s ∧ hostMovesLeft u < hostMovesLeft s) := by
  obtain ⟨m, rest, hp⟩ := hostReady_iff.1 (nextAgent_host hn)
  rcases hostMove_pending ((step_host hn hp).symm.trans hs) with hu | ⟨rfl, hb, hu⟩
  · exact .inl (by simp [hu, hp])
  · have hbusy : s.busy = true := by simpa using hb
    have hr : ¬ resetsNext s := fun ⟨_, hhead⟩ => by simp [hp] at hhead
    obtain ⟨v, hv, hsame, hless⟩ := step_host_while_busy hbusy (ht hbusy) hn hr
    cases hv.symm.trans hs
    exact .inr ⟨hu.trans hp.symm, by simp [engineStepsLeft, hsame.t_eq, hsame.busy_eq], hless⟩

/-- Where neither agent can move, the run has ended. -/
theorem ended_of_no_agent {s : State} (ht : s.busy = true → s.t.toNat ≤ 80) (hn : nextAgent s = none) : Ended s := by
  obtain ⟨hh, he⟩ := nextAgent_none hn
  refine ⟨hostReady_eq_false.1 hh, Bool.eq_false_iff.2 fun hb => ?_⟩
  simp [engineReady_of_busy hb (ht hb)] at he

/-- A run ends: each step makes the program shorter, or keeps it and brings the compression forward, or keeps both and leaves fewer
moves to a host that waits. -/
theorem run_ends (s : State) (ht : s.busy = true → s.t.toNat ≤ 80) :
    ∃ (k : Nat) (u : State), Sys2Proof.core.run k s = .next u ∧ Ended u := by
  match hn : nextAgent s with
  | none => exact ⟨0, s, rfl, ended_of_no_agent ht hn⟩
  | some g =>
    obtain ⟨v, hs⟩ := everyStepAnswersANextState s
    obtain ⟨k, u, hrun, hu⟩ := run_ends v (t_le_of_step ht hs)
    exact ⟨k + 1, u, (run_succ_of_step Sys2Proof.core k hs).trans hrun, hu⟩
termination_by (s.pending.length, engineStepsLeft s, hostMovesLeft s)
decreasing_by
  cases g with
  | host =>
    rcases host_step_progress ht hn hs with hshorter | ⟨hp, hengine, hfewer⟩
    · exact Prod.Lex.left _ _ hshorter
    · rw [hp, hengine]
      exact Prod.Lex.right _ (Prod.Lex.right _ hfewer)
  | engine =>
    obtain ⟨-, -, -, hp⟩ := engine_step_frame hn hs
    rw [hp]
    exact Prod.Lex.right _ (Prod.Lex.left _ _ (engineStepsLeft_of_engine_step hn hs))

/-- Settles O53, by recursion on the run with a lexicographic measure of the moves and engine steps to come. -/
theorem everyHostProgramEnds : Obligations.EveryHostProgramEnds := run_ends

end Sys2Proof.Machine
